-- ==== Sys2Proof/Word.lean ====
section
/-! DEFINITION. The widths of R66 (spec/20_memory.md): a command word is 32 bits, din, dout and every
count are 64 bits, a byte is 8 bits. Byte strings are R11's finite sequences of 8-bit values. -/

namespace Sys2Proof

/-- A byte operand, or one byte of a byte string (R11, R66). -/
abbrev Byte := BitVec 8

/-- A 64-bit count, and the width of `din` and `dout` (R9, R66; CountWidth = 64 by R8). -/
abbrev Count := BitVec 64

/-- A 32-bit command word (R81). -/
abbrev CmdWord := BitVec 32

/-- A finite sequence of bytes, first byte first (R11). -/
abbrev ByteString := List Byte

end Sys2Proof
end

