-- ==== Sys2Proof/Config.lean ====
section
/-! DEFINITION. The configuration of one core instance: the parameters of R8 (spec/00_scope.md) that a
command's outcome depends on. R20 calls them a parameter of the step. The values here are the
spec's own parameters; notes/assumptions/5.md says how they reach the step. -/

namespace Sys2Proof

/-- What SR.START does with counts whose sum is not a multiple of 8 (R8, D10). -/
inductive SrUnalignedPolicy where
  /-- Raise UNALIGNED_COUNTS (R144): the decided value of D10. -/
  | reject
  /-- Apply the geometry formula to any counts (R154): allowed as a model argument. -/
  | trust
  deriving DecidableEq, Repr

/-- `SrUnalignedPolicy` and `LcBufBytes` of R8. `CountWidth`, `TableEntries` and `TableEntryWidth`
are fixed by R8 and stand in the types; `PageBytes` is not observable (D9). -/
structure Config where
  srUnalignedPolicy : SrUnalignedPolicy
  /-- The capacity in bytes of each of LC's two buffers; OPEN, at least 64 (D19). -/
  lcBufBytes : Nat
  deriving DecidableEq, Repr

/-- The configuration `State.reset` takes. `reject` is the spec's decided value (D10). 64 is a
DESIGN CHOICE (unsafe for claims about runs from `State.reset` alone, notes/assumptions/5.md): the least value R8 allows
and the one spec/95_test_vectors.md uses. -/
def Config.decided : Config := ⟨.reject, 64⟩

/-- A free value: what LC.RDLEN returns for a length that 64 bits do not hold. R185 returns the
length in a 64-bit `dout` (R66) and R8 sets no upper bound on LcBufBytes, so the spec states no
result there. DESIGN CHOICE (safe), notes/assumptions/18.md. -/
opaque Config.wideLength : Nat → Count

end Sys2Proof
end

