-- ==== Sys2Proof/Syntax.lean ====
section
/-! DEFINITION. The command set: one constructor for each of the 29 rows of spec/opcode_table.json
(R84, spec/30_encoding.md), and the three fields of format C (R82). A byte operand (R83) is an
argument of its constructor. The 64-bit `din` operand of the four LD commands is not part of the
command word (R80): it is read from the port, so those constructors have no argument. -/

namespace Sys2Proof

/-- The commands of R84, in the order of its table. -/
inductive Instr where
  | nop
  | gstat
  | pcaClr
  | pcaPush (imm8 : Byte)
  | pcaEnd
  | pcaFail
  | pcaRd0
  | pcaRd1
  | pcaStat
  | tblRd (imm8 : Byte)
  | srLd0
  | srLd1
  | srStart
  | srPull
  | srFail
  | srRdlen
  | srRdpos
  | srStat
  | lcClr
  | lcLd0
  | lcLd1
  | lcPutc (imm8 : Byte)
  | lcEnc
  | lcDec
  | lcGetc
  | lcRd0
  | lcRd1
  | lcRdlen
  | lcStat
  deriving DecidableEq, Repr

/-- The fields of format C (R82): OP is bits 31:24, RSV bits 23:8, IMM8 bits 7:0. -/
structure Fields where
  op : BitVec 8
  rsv : BitVec 16
  imm8 : Byte
  deriving DecidableEq, Repr

end Sys2Proof
end

