-- ==== Sys2Proof/WellFormed.lean ====
section
/-! DEFINITION. Which command words are legal, as R85, R86 and R87 (spec/30_encoding.md) say it in
words, apart from the decoder; and which configurations R8 allows. Every term of `Instr` is
well-formed by its type (a byte operand has eight bits), so the checks are on the fields of a word. -/

namespace Sys2Proof

/-- R85: OP is none of 0x02 to 0x0F, 0x18 to 0x1F, 0x28 to 0x2F, 0x3B to 0xFF. -/
def Fields.opListed (f : Fields) : Bool :=
  let n := f.op.toNat
  !((0x02 ≤ n && n ≤ 0x0F) || (0x18 ≤ n && n ≤ 0x1F) || (0x28 ≤ n && n ≤ 0x2F) || 0x3B ≤ n)

/-- R86: the reserved field is 0. -/
def Fields.rsvClear (f : Fields) : Bool := f.rsv == 0

/-- R87: PCA.PUSH, TBL.RD and LC.PUTC take any byte, every other command wants IMM8 = 0. -/
def Fields.immAllowed (f : Fields) : Bool :=
  f.op == 0x11 || f.op == 0x17 || f.op == 0x33 || f.imm8 == 0

/-- A legal command word: none of R85, R86 and R87 makes it illegal. -/
def Fields.wellFormed (f : Fields) : Bool := f.opListed && f.rsvClear && f.immAllowed

/-- R8: `LcBufBytes >= 64`. -/
abbrev Config.WellFormed (c : Config) : Prop := 64 ≤ c.lcBufBytes

end Sys2Proof
end

