-- ==== Sys2Proof/Decode.lean ====
section
/-! DEFINITION. Decoding a command word (R82, R84, R90 of spec/30_encoding.md) and encoding a command.
The word is one 32-bit value on the port; it is never split into bytes (R63), so there is no byte
order in it (notes/assumptions/12.md). -/

namespace Sys2Proof

/-- Why a word is illegal. Every reason ends the command with ILLEGAL_COMMAND (R85 to R87). -/
inductive Illegal where
  /-- R85: OP is not in the table of R84. -/
  | unlistedOp
  /-- R86: RSV is not 0. -/
  | reservedBits
  /-- R87: IMM8 is not 0 on a command that takes no byte operand. -/
  | unusedByte
  deriving DecidableEq, Repr

/-- The fields of a word (R82). -/
def fieldsOf (w : CmdWord) : Fields :=
  ⟨w.extractLsb' 24 8, w.extractLsb' 8 16, w.extractLsb' 0 8⟩

/-- The word with the given fields (R82). -/
def wordOf (f : Fields) : CmdWord := f.op ++ f.rsv ++ f.imm8

/-- The OP column of R84, with the byte operand put into the commands that take one. -/
def instrOf (op : BitVec 8) (imm8 : Byte) : Option Instr :=
  match op.toNat with
  | 0x00 => some .nop
  | 0x01 => some .gstat
  | 0x10 => some .pcaClr
  | 0x11 => some (.pcaPush imm8)
  | 0x12 => some .pcaEnd
  | 0x13 => some .pcaFail
  | 0x14 => some .pcaRd0
  | 0x15 => some .pcaRd1
  | 0x16 => some .pcaStat
  | 0x17 => some (.tblRd imm8)
  | 0x20 => some .srLd0
  | 0x21 => some .srLd1
  | 0x22 => some .srStart
  | 0x23 => some .srPull
  | 0x24 => some .srFail
  | 0x25 => some .srRdlen
  | 0x26 => some .srRdpos
  | 0x27 => some .srStat
  | 0x30 => some .lcClr
  | 0x31 => some .lcLd0
  | 0x32 => some .lcLd1
  | 0x33 => some (.lcPutc imm8)
  | 0x34 => some .lcEnc
  | 0x35 => some .lcDec
  | 0x36 => some .lcGetc
  | 0x37 => some .lcRd0
  | 0x38 => some .lcRd1
  | 0x39 => some .lcRdlen
  | 0x3A => some .lcStat
  | _ => none

/-- The set {0x11, 0x17, 0x33} of R90. -/
def takesByte (op : BitVec 8) : Bool := op == 0x11 || op == 0x17 || op == 0x33

/-- R90's checks on the fields, in its order. -/
def decodeFields (f : Fields) : Except Illegal Instr :=
  match instrOf f.op f.imm8 with
  | none => .error .unlistedOp
  | some i =>
    if f.rsv ≠ 0 then .error .reservedBits
    else if !takesByte f.op && f.imm8 ≠ 0 then .error .unusedByte
    else .ok i

/-- R90: decode a command word, total on every word. -/
def decode (w : CmdWord) : Except Illegal Instr := decodeFields (fieldsOf w)

/-- What the decoder reads from a row's bits as spec/opcode_table.json numbers them: bit 0 is the
word's least significant bit, and the bits above `nbits` are 0. -/
def decodeTableWord (nbits w : Nat) : Option Instr :=
  match decode (BitVec.ofNat 32 (w % 2 ^ nbits)) with
  | .ok i => some i
  | .error _ => none

/-- The OP value of a command (R84). -/
def opcode : Instr → BitVec 8
  | .nop => 0x00
  | .gstat => 0x01
  | .pcaClr => 0x10
  | .pcaPush _ => 0x11
  | .pcaEnd => 0x12
  | .pcaFail => 0x13
  | .pcaRd0 => 0x14
  | .pcaRd1 => 0x15
  | .pcaStat => 0x16
  | .tblRd _ => 0x17
  | .srLd0 => 0x20
  | .srLd1 => 0x21
  | .srStart => 0x22
  | .srPull => 0x23
  | .srFail => 0x24
  | .srRdlen => 0x25
  | .srRdpos => 0x26
  | .srStat => 0x27
  | .lcClr => 0x30
  | .lcLd0 => 0x31
  | .lcLd1 => 0x32
  | .lcPutc _ => 0x33
  | .lcEnc => 0x34
  | .lcDec => 0x35
  | .lcGetc => 0x36
  | .lcRd0 => 0x37
  | .lcRd1 => 0x38
  | .lcRdlen => 0x39
  | .lcStat => 0x3A

/-- The IMM8 field of a command: its byte operand (R83), else 0 (R87). -/
def byteOperand : Instr → Byte
  | .pcaPush b => b
  | .tblRd b => b
  | .lcPutc b => b
  | .nop => 0 | .gstat => 0
  | .pcaClr => 0 | .pcaEnd => 0 | .pcaFail => 0 | .pcaRd0 => 0 | .pcaRd1 => 0 | .pcaStat => 0
  | .srLd0 => 0 | .srLd1 => 0 | .srStart => 0 | .srPull => 0 | .srFail => 0
  | .srRdlen => 0 | .srRdpos => 0 | .srStat => 0
  | .lcClr => 0 | .lcLd0 => 0 | .lcLd1 => 0 | .lcEnc => 0 | .lcDec => 0 | .lcGetc => 0
  | .lcRd0 => 0 | .lcRd1 => 0 | .lcRdlen => 0 | .lcStat => 0

/-- The command word of a command (R82, R84): RSV is 0. -/
def encode (i : Instr) : CmdWord := wordOf ⟨opcode i, 0, byteOperand i⟩

end Sys2Proof
end

