-- ==== Sys2Proof/Machine/State.lean ====
section
/-! DEFINITION. The state of one core instance (R20, spec/10_state.md), unit by unit, with the command
port the step reads its inputs from and writes its responses to. Reset values are those of R51. -/

namespace Sys2Proof.Machine

/-- PSTATE (R27); its 2-bit values are `PState.bits`. -/
inductive PState where
  | idle | scan | done | failed
  deriving DecidableEq, Repr

/-- SSTATE (R32); its 2-bit values are `SState.bits`. -/
inductive SState where
  | idle | run | done | failed
  deriving DecidableEq, Repr

/-- LSTATE (R37); the value 3 is never held, so it has no constructor. -/
inductive LState where
  | ready | out | failed
  deriving DecidableEq, Repr

/-- The nine errors of R220; OK (code 0) is no error. Their numbers are `ErrorCode.bits`. -/
inductive ErrorCode where
  | readFailure | writeFailure | invalidLocator | unalignedCounts | overflow
  | badState | illegalCommand | endOfStream | bufferFull
  deriving DecidableEq, Repr

/-- The global error log: GERR (R25) and LASTERR (R26). -/
structure ErrorLog where
  gerr : BitVec 16
  lasterr : BitVec 4
  deriving DecidableEq, Repr

/-- The PCA registers PSTATE, PERR, ACC1 and ACCB (R27 to R30). -/
structure Pca where
  pstate : PState
  perr : BitVec 4
  acc1 : Count
  accb : Count
  deriving DecidableEq, Repr

/-- The SR registers (R32 to R36). -/
structure Sr where
  sstate : SState
  serr : BitVec 4
  c0 : Count
  c1 : Count
  z : Count
  e0 : BitVec 3
  e1 : BitVec 3
  bnd : Bool
  o : Count
  len : Count
  pos : Count
  deriving DecidableEq, Repr

/-- The LC registers (R37 to R42). OPOS is an index into OBUF, whose size is bounded only by the
open parameter LcBufBytes, so it is a number without a fixed width (R41). -/
structure Lc where
  lstate : LState
  lerr : BitVec 4
  ec0 : Count
  ec1 : Count
  ibuf : ByteString
  obuf : ByteString
  opos : Nat
  dc0 : Count
  dc1 : Count
  dvalid : Bool
  deriving DecidableEq, Repr

/-- One thing the host does to the instance: a transaction on the command port (R80), or a reset
event between two transactions (R250). -/
inductive Input where
  | command (cmd : CmdWord) (din : Count)
  | reset
  deriving DecidableEq, Repr

/-- What one transaction returns (R80): the 4-bit response code and the 64-bit data word. -/
structure Response where
  resp : BitVec 4
  dout : Count
  deriving DecidableEq, Repr

/-- The command port. `pending` is what the host has issued and the core has not yet taken, first
first (R70); `din` is the data operand of the transaction in progress; `responses` is every
response so far, oldest first, R259's observation. DESIGN CHOICE (safe), notes/assumptions/1.md to 3.md. -/
structure Port where
  pending : List Input
  din : Count
  responses : List Response
  deriving DecidableEq, Repr

/-- One core instance: the registers of R20, its configuration (a parameter of the step that no
step changes, notes/assumptions/5.md) and its command port. TBL is a constant (`tbl`), no field. -/
structure State where
  cfg : Config
  log : ErrorLog
  pca : Pca
  sr : Sr
  lc : Lc
  port : Port
  deriving DecidableEq, Repr

/-- What stops the machine. The spec's own errors are responses, not faults (R227). -/
inductive Fault where
  /-- Raised by LC.GETC when OPOS is beyond the end of OBUF, where `OBUF[OPOS]` does not exist.
  R41's `OPOS <= len(OBUF)` excludes it; safe (notes/assumptions/7.md). -/
  | outputIndexPastEnd
  deriving DecidableEq, Repr

/-- Why an instruction has no meaning. -/
inductive Refusal where
  /-- Raised only by an arm of `exec` that is not modelled yet; safe. No arm of this model is. -/
  | notModelled (mnemonic : String)
  deriving DecidableEq, Repr

/-- What one step answers. -/
abbrev Result := Host.Outcome State Fault Refusal

/-- R51: GERR and LASTERR after reset. -/
def ErrorLog.reset : ErrorLog := ⟨0, 0⟩

/-- R51: the PCA registers after reset. -/
def Pca.reset : Pca := ⟨.idle, 0, 0, 0⟩

/-- R51: the SR registers after reset. -/
def Sr.reset : Sr :=
  { sstate := .idle, serr := 0, c0 := 0, c1 := 0, z := 0, e0 := 0, e1 := 0, bnd := false
    o := 0, len := 0, pos := 0 }

/-- R51: the LC registers after reset. -/
def Lc.reset : Lc :=
  { lstate := .ready, lerr := 0, ec0 := 0, ec1 := 0, ibuf := [], obuf := [], opos := 0
    dc0 := 0, dc1 := 0, dvalid := false }

/-- A port on which nothing has been issued yet. DESIGN CHOICE (safe), notes/assumptions/1.md to 3.md. -/
def Port.quiet : Port := ⟨[], 0, []⟩

/-- R51 under any configuration: the state right after reset, with nothing on the port. -/
def State.resetWith (c : Config) : State :=
  ⟨c, ErrorLog.reset, Pca.reset, Sr.reset, Lc.reset, Port.quiet⟩

/-- The state right after reset (R51), in the configuration `Config.decided`. -/
def State.reset : State := State.resetWith Config.decided

end Sys2Proof.Machine
end

