-- ==== Sys2Proof/Machine/Flags.lean ====
section
/-! DEFINITION. The flag-like outputs (R47, spec/10_state.md): the numbers of the response codes
(R220), the 2-bit values of the unit states, and the four status words (R43 to R46). -/

namespace Sys2Proof.Machine

/-- The number of an error (R220). -/
def ErrorCode.bits : ErrorCode → BitVec 4
  | .readFailure => 1
  | .writeFailure => 2
  | .invalidLocator => 3
  | .unalignedCounts => 4
  | .overflow => 5
  | .badState => 6
  | .illegalCommand => 7
  | .endOfStream => 8
  | .bufferFull => 9

/-- The values of PSTATE (R27). -/
def PState.bits : PState → BitVec 2
  | .idle => 0
  | .scan => 1
  | .done => 2
  | .failed => 3

/-- The values of SSTATE (R32). -/
def SState.bits : SState → BitVec 2
  | .idle => 0
  | .run => 1
  | .done => 2
  | .failed => 3

/-- The values of LSTATE (R37). -/
def LState.bits : LState → BitVec 2
  | .ready => 0
  | .out => 1
  | .failed => 2

/-- R43, R121: `zext_64({PERR, 0b00, PSTATE})`. -/
def pcaStatus (p : Pca) : Count := (p.perr ++ 0#2 ++ p.pstate.bits).setWidth 64

/-- R44, R151: `zext_64({E1, 0b0, E0, SERR, 0b0, BND, SSTATE})`. -/
def srStatus (r : Sr) : Count :=
  (r.e1 ++ 0#1 ++ r.e0 ++ r.serr ++ 0#1 ++ BitVec.ofBool r.bnd ++ r.sstate.bits).setWidth 64

/-- R45, R186: `zext_64({LERR, 0b0, DVALID, LSTATE})`. -/
def lcStatus (l : Lc) : Count :=
  (l.lerr ++ 0#1 ++ BitVec.ofBool l.dvalid ++ l.lstate.bits).setWidth 64

/-- R46, R211: `zext_64({LASTERR, GERR})`. -/
def globalStatus (g : ErrorLog) : Count := (g.lasterr ++ g.gerr).setWidth 64

end Sys2Proof.Machine
end

