-- ==== Sys2Proof/Machine/Operands.lean ====
section
/-! DEFINITION. The operand forms (R83, spec/30_encoding.md): the byte `imm8` used as a byte or as an
index of TBL, and the 64-bit `din`; and a byte, a TBL entry or a length on `dout` (R66). -/

namespace Sys2Proof.Machine

/-- R12: the number of bits of `b` that are 1. -/
def popcount (b : Byte) : Nat := ((List.range 8).filter fun i => b.getLsbD i).length

/-- R23: the entry of the ROM TBL at index `b`, four bits wide. TBL is constant (R24), so it is a
function and no field of `State` (notes/assumptions/9.md). -/
def tbl (b : Byte) : BitVec 4 := BitVec.ofNat 4 (popcount b)

/-- R66: a TBL entry zero-extended to 64 bits. -/
def tblCount (b : Byte) : Count := (tbl b).setWidth 64

/-- R66: a byte result, in `dout[7:0]` with `dout[63:8]` = 0. -/
def byteDout (b : Byte) : Count := b.setWidth 64

/-- R66, R185: the length of a byte string on `dout`; a free value where 64 bits do not hold it
(notes/assumptions/18.md). -/
def lengthDout (n : Nat) : Count := if n < 2 ^ 64 then BitVec.ofNat 64 n else Config.wideLength n

/-- R80, R83: the 64-bit data operand of the transaction in progress. -/
def dinOperand (s : State) : Count := s.port.din

end Sys2Proof.Machine
end

