-- ==== Sys2Proof/Machine/Ops.lean ====
section
/-! DEFINITION. The shared operations of the commands: replacing one unit's registers, ending a
command with OK or with an error (R220 to R222, spec/60_exceptions.md), taking an input from the
port (R80), and the reset event (R250, spec/70_reset_and_hazards.md). There is no return from an
exception: the core has no such command and saves nothing (R227, R229). -/

namespace Sys2Proof.Machine

/-- The state with the PCA registers replaced. -/
def State.withPca (s : State) (p : Pca) : State := { s with pca := p }

/-- The state with the SR registers replaced. -/
def State.withSr (s : State) (r : Sr) : State := { s with sr := r }

/-- The state with the LC registers replaced. -/
def State.withLc (s : State) (l : Lc) : State := { s with lc := l }

/-- The state with one more response on the port (R80). -/
def State.respond (s : State) (resp : BitVec 4) (dout : Count) : State :=
  { s with port := { s.port with responses := s.port.responses ++ [⟨resp, dout⟩] } }

/-- R222: `GERR <- GERR | (1 << k)` and `LASTERR <- k`. -/
def State.logError (s : State) (e : ErrorCode) : State :=
  { s with log := ⟨s.log.gerr ||| (1#16 <<< e.bits.toNat), e.bits⟩ }

/-- A command that reaches its end without `raise`: resp = OK (R220), with its `dout`. The error
log keeps its value (R222). -/
def complete (dout : Count) (s : State) : Result := .next (s.respond 0 dout)

/-- `raise E()` (R11, R221, R222, R227): every error of the core, as one operation. The response is
the error's code with `dout` = 0; the error is logged after the writes already made to `s`;
nothing is saved, no mode changes and control goes nowhere. -/
def raise (e : ErrorCode) (s : State) : Result := .next ((s.logError e).respond e.bits 0)

/-- The LC registers after a fatal error of LC: `lc_fail` of spec/42_locator_codec.md. -/
def Lc.failWith (l : Lc) (e : ErrorCode) : Lc :=
  { l with
    ibuf := [], obuf := [], opos := 0, dc0 := 0, dc1 := 0, dvalid := false
    lerr := e.bits, lstate := .failed }

/-- `lc_fail(code)` of spec/42_locator_codec.md. -/
def lcFail (e : ErrorCode) (s : State) : Result := raise e (s.withLc (s.lc.failWith e))

/-- The core takes a command off the port: the later inputs stay pending and `din` carries the
command's data operand (R80, R70). -/
def State.accept (s : State) (din : Count) (rest : List Input) : State :=
  { s with port := { s.port with pending := rest, din := din } }

/-- R85: an illegal word ends with ILLEGAL_COMMAND, for whichever of R85 to R87 it is illegal. -/
def rejectIllegal (_ : Illegal) (s : State) : Result := raise .illegalCommand s

/-- R250: every register takes its value of R51; no response; the parameters and the port, which
are no registers of the instance, stay. -/
def State.resetRegisters (s : State) : State := { State.resetWith s.cfg with port := s.port }

/-- R250: the core takes a reset event off the port. -/
def State.takeReset (s : State) (rest : List Input) : State :=
  { s.resetRegisters with port := { s.port with pending := rest } }

end Sys2Proof.Machine
end

