-- ==== Sys2Proof/Machine/Text.lean ====
section
/-! DEFINITION. The text of a locator: character codes (R13) and hexadecimal (R14) of
spec/00_scope.md, and the encoding and decoding functions R176 and R178 to R180 of
spec/42_locator_codec.md. -/

namespace Sys2Proof.Machine

/-- The byte of '/' (R13). PRESUMED (safe for ASCII hosts, notes/assumptions/11.md): the spec takes ASCII
from general knowledge. -/
def slash : Byte := 0x2F

/-- R14: the value of a hex digit in either case, none for every other byte. -/
def hexdigit (c : Byte) : Option Nat :=
  let n := c.toNat
  if 0x30 ≤ n ∧ n ≤ 0x39 then some (n - 0x30)
  else if 0x41 ≤ n ∧ n ≤ 0x46 then some (n - 0x41 + 10)
  else if 0x61 ≤ n ∧ n ≤ 0x66 then some (n - 0x61 + 10)
  else none

/-- R14: the lower-case hex digit of a value 0 to 15. -/
def hexchar (d : Nat) : Byte :=
  if d ≤ 9 then BitVec.ofNat 8 (0x30 + d) else BitVec.ofNat 8 (0x61 + (d - 10))

/-- The digits of `v`, most significant first, without leading zeros, if `v < 16 ^ digits`. -/
def hexDigits : (digits v : Nat) → ByteString
  | 0, _ => []
  | n + 1, v => if v < 16 then [hexchar v] else hexDigits n (v / 16) ++ [hexchar (v % 16)]

/-- R14: `hex(v)`; a 64-bit value has at most 16 digits. -/
def hex (v : Count) : ByteString := hexDigits 16 v.toNat

/-- The loop of R180 from a value already read. -/
def hexvalFrom : Nat → ByteString → Option Nat
  | v, [] => some v
  | v, c :: cs =>
    match hexdigit c with
    | none => none
    | some d => if 16 * v + d > 2 ^ 64 - 1 then none else hexvalFrom (16 * v + d) cs

/-- R180: `hexval(s)`, none where the rule says fail. -/
def hexval (s : ByteString) : Option Count :=
  match s with
  | [] => none
  | _ => (hexvalFrom 0 s).map (BitVec.ofNat 64)

/-- R178: `split(r, '/')`; k separators give k + 1 segments, which may be empty. -/
def splitSlash : ByteString → List ByteString
  | [] => [[]]
  | c :: cs =>
    if c = slash then [] :: splitSlash cs
    else
      match splitSlash cs with
      | [] => [[c]]
      | seg :: segs => (c :: seg) :: segs

/-- R178: `segments(p)`. -/
def segments : ByteString → Option (List ByteString)
  | [] => none
  | c :: r => if c = slash then some (splitSlash r) else none

/-- R179: `dec(p)`, none where the rule says fail. -/
def dec (p : ByteString) : Option (Count × Count × ByteString) :=
  match segments p with
  | some [s0, s1, f] =>
    match hexval s0, hexval s1 with
    | some v0, some v1 => some (v0, v1, f)
    | _, _ => none
  | _ => none

/-- R176: `enc(c0, c1, f)`. C1 of spec/90_conflicts.md settles the leading '/'. -/
def enc (c0 c1 : Count) (f : ByteString) : ByteString :=
  [slash] ++ hex c0 ++ [slash] ++ hex c1 ++ [slash] ++ f

end Sys2Proof.Machine
end

