-- ==== Sys2Proof/Machine/Lc.lean ====
section
/-! DEFINITION. The LC commands (spec/42_locator_codec.md). -/

namespace Sys2Proof.Machine

/-- The LC registers after LC.CLR (R172); EC0 and EC1 are kept (R39). -/
def Lc.cleared (l : Lc) : Lc :=
  { l with
    ibuf := [], obuf := [], opos := 0, dc0 := 0, dc1 := 0, dvalid := false
    lerr := 0, lstate := .ready }

/-- R172 LC.CLR. -/
def execLcClr (s : State) : Result := complete 0 (s.withLc s.lc.cleared)

/-- R173 LC.LD0. -/
def execLcLd0 (s : State) : Result := complete 0 (s.withLc { s.lc with ec0 := dinOperand s })

/-- R174 LC.LD1. -/
def execLcLd1 (s : State) : Result := complete 0 (s.withLc { s.lc with ec1 := dinOperand s })

/-- R175 LC.PUTC. -/
def execLcPutc (imm8 : Byte) (s : State) : Result :=
  if s.lc.lstate ≠ .ready then raise .badState s
  else if s.lc.ibuf.length = s.cfg.lcBufBytes then lcFail .bufferFull s
  else complete 0 (s.withLc { s.lc with ibuf := s.lc.ibuf ++ [imm8] })

/-- R177 LC.ENC; DC0 and DC1 are kept, unreadable (R42). -/
def execLcEnc (s : State) : Result :=
  if s.lc.lstate ≠ .ready then raise .badState s
  else if (enc s.lc.ec0 s.lc.ec1 s.lc.ibuf).length > s.cfg.lcBufBytes then lcFail .bufferFull s
  else
    complete 0 (s.withLc
      { s.lc with
        obuf := enc s.lc.ec0 s.lc.ec1 s.lc.ibuf, opos := 0, dvalid := false, lstate := .out })

/-- R181 LC.DEC. -/
def execLcDec (s : State) : Result :=
  if s.lc.lstate ≠ .ready then raise .badState s
  else
    match dec s.lc.ibuf with
    | none => lcFail .invalidLocator s
    | some (v0, v1, f) =>
      complete 0 (s.withLc
        { s.lc with dc0 := v0, dc1 := v1, dvalid := true, obuf := f, opos := 0, lstate := .out })

/-- R182 LC.GETC. Where `OBUF[OPOS]` does not exist (OPOS beyond the end, which R41 excludes) the
machine stops: notes/assumptions/7.md. -/
def execLcGetc (s : State) : Result :=
  if s.lc.lstate ≠ .out then raise .badState s
  else if s.lc.opos = s.lc.obuf.length then raise .endOfStream s
  else
    match s.lc.obuf[s.lc.opos]? with
    | none => .fault .outputIndexPastEnd
    | some b => complete (byteDout b) (s.withLc { s.lc with opos := s.lc.opos + 1 })

/-- R183 LC.RD0. -/
def execLcRd0 (s : State) : Result :=
  if s.lc.dvalid = false then raise .badState s
  else complete s.lc.dc0 s

/-- R184 LC.RD1. -/
def execLcRd1 (s : State) : Result :=
  if s.lc.dvalid = false then raise .badState s
  else complete s.lc.dc1 s

/-- R185 LC.RDLEN. -/
def execLcRdlen (s : State) : Result :=
  if s.lc.lstate ≠ .out then raise .badState s
  else complete (lengthDout s.lc.obuf.length) s

/-- R186 LC.STAT. -/
def execLcStat (s : State) : Result := complete (lcStatus s.lc) s

end Sys2Proof.Machine
end

