-- ==== Sys2Proof/Machine/Pca.lean ====
section
/-! DEFINITION. The PCA and TBL commands (spec/40_popcount_accumulator.md). -/

namespace Sys2Proof.Machine

/-- The PCA registers after a fatal error of PCA (R116, R118, R223). -/
def Pca.failWith (e : ErrorCode) : Pca := ⟨.failed, e.bits, 0, 0⟩

/-- R114 PCA.CLR. -/
def execPcaClr (s : State) : Result :=
  if s.pca.pstate = .scan then raise .badState s
  else complete 0 (s.withPca ⟨.scan, 0, 0, 0⟩)

/-- R115, R116 PCA.PUSH. -/
def execPcaPush (imm8 : Byte) (s : State) : Result :=
  if s.pca.pstate ≠ .scan then raise .badState s
  else if s.pca.accb.toNat > 2 ^ 64 - 1 - 8 then
    raise .overflow (s.withPca (Pca.failWith .overflow))
  else
    complete 0 (s.withPca
      { s.pca with acc1 := s.pca.acc1 + tblCount imm8, accb := s.pca.accb + 8 })

/-- R117 PCA.END. -/
def execPcaEnd (s : State) : Result :=
  if s.pca.pstate ≠ .scan then raise .badState s
  else complete 0 (s.withPca { s.pca with pstate := .done })

/-- R118 PCA.FAIL. -/
def execPcaFail (s : State) : Result :=
  if s.pca.pstate ≠ .scan then raise .badState s
  else raise .readFailure (s.withPca (Pca.failWith .readFailure))

/-- R119 PCA.RD0. -/
def execPcaRd0 (s : State) : Result :=
  if s.pca.pstate ≠ .done then raise .badState s
  else complete (s.pca.accb - s.pca.acc1) s

/-- R120 PCA.RD1. -/
def execPcaRd1 (s : State) : Result :=
  if s.pca.pstate ≠ .done then raise .badState s
  else complete s.pca.acc1 s

/-- R121 PCA.STAT. -/
def execPcaStat (s : State) : Result := complete (pcaStatus s.pca) s

/-- R112 TBL.RD. -/
def execTblRd (imm8 : Byte) (s : State) : Result := complete (tblCount imm8) s

end Sys2Proof.Machine
end

