-- ==== Sys2Proof/Machine/Stream.lean ====
section
/-! DEFINITION. The stream of SR as functions of the counts: the alignment test of R144, the geometry
of R145 and the byte at a position of R146 (spec/41_stream_reconstructor.md). -/

namespace Sys2Proof.Machine

/-- The run geometry that SR.START fixes (R35, R36, R145). -/
structure Geometry where
  z : Count
  e0 : BitVec 3
  e1 : BitVec 3
  bnd : Bool
  o : Count
  len : Count
  deriving DecidableEq, Repr

/-- R144, R145: `S mod 8 = 0` for the sum `S` formed exactly, in 65 bits. -/
def aligned (c0 c1 : Count) : Bool := (c0.setWidth 65 + c1.setWidth 65) % 8 == 0

/-- R145: `geometry(C0, C1)`. C2 of spec/90_conflicts.md settles BND's condition. -/
def geometry (c0 c1 : Count) : Geometry :=
  let z := c0 / 8
  let e0 := (c0 % 8).setWidth 3
  let e1 := (c1 % 8).setWidth 3
  let bnd := decide (e0.toNat + e1.toNat > 0)
  let o := c1 / 8
  { z := z, e0 := e0, e1 := e1, bnd := bnd, o := o, len := z + (BitVec.ofBool bnd).setWidth 64 + o }

/-- The geometry SR.START leaves when it rejects unaligned counts (R144). -/
def Geometry.cleared : Geometry := ⟨0, 0, 0, false, 0, 0⟩

/-- The SR registers with a run geometry written. -/
def Sr.withGeometry (r : Sr) (g : Geometry) : Sr :=
  { r with z := g.z, e0 := g.e0, e1 := g.e1, bnd := g.bnd, o := g.o, len := g.len }

/-- R146: the boundary byte, `(0xFF >> E0)[7:0]`. -/
def boundaryByte (e0 : BitVec 3) : Byte := 0xFF#8 >>> e0.toNat

/-- R146: `byte(p)` of the stream whose geometry SR holds. R146 defines it for `p < LEN`. -/
def byteAt (r : Sr) (p : Count) : Byte :=
  if p.toNat < r.z.toNat then 0x00
  else if r.bnd && p == r.z then boundaryByte r.e0
  else 0xFF

end Sys2Proof.Machine
end

