-- ==== Sys2Proof/Machine/Sr.lean ====
section
/-! DEFINITION. The SR commands (spec/41_stream_reconstructor.md). -/

namespace Sys2Proof.Machine

/-- R142 SR.LD0. -/
def execSrLd0 (s : State) : Result :=
  if s.sr.sstate = .run then raise .badState s
  else complete 0 (s.withSr { s.sr with c0 := dinOperand s })

/-- R143 SR.LD1. -/
def execSrLd1 (s : State) : Result :=
  if s.sr.sstate = .run then raise .badState s
  else complete 0 (s.withSr { s.sr with c1 := dinOperand s })

/-- The SR registers after SR.START rejects unaligned counts (R144). -/
def Sr.rejectCounts (r : Sr) : Sr :=
  { r.withGeometry Geometry.cleared with
    pos := 0, serr := ErrorCode.bits .unalignedCounts, sstate := .failed }

/-- The SR registers after SR.START opens a stream (R144): DONE at once when it is empty. -/
def Sr.started (r : Sr) (g : Geometry) : Sr :=
  { r.withGeometry g with pos := 0, serr := 0, sstate := if g.len.toNat > 0 then .run else .done }

/-- R144 SR.START. -/
def execSrStart (s : State) : Result :=
  if s.sr.sstate = .run then raise .badState s
  else if aligned s.sr.c0 s.sr.c1 = false ∧ s.cfg.srUnalignedPolicy = .reject then
    raise .unalignedCounts (s.withSr s.sr.rejectCounts)
  else complete 0 (s.withSr (s.sr.started (geometry s.sr.c0 s.sr.c1)))

/-- The SR registers after one byte is emitted (R147). -/
def Sr.advance (r : Sr) : Sr :=
  { r with pos := r.pos + 1, sstate := if r.pos + 1 = r.len then .done else r.sstate }

/-- R147 SR.PULL, its tests in the order of its pseudocode (R226). -/
def execSrPull (s : State) : Result :=
  if s.sr.sstate = .done then raise .endOfStream s
  else if s.sr.sstate = .idle ∨ s.sr.sstate = .failed then raise .badState s
  else complete (byteDout (byteAt s.sr s.sr.pos)) (s.withSr s.sr.advance)

/-- R148 SR.FAIL; POS and LEN are kept. -/
def execSrFail (s : State) : Result :=
  if s.sr.sstate ≠ .run then raise .badState s
  else raise .writeFailure
    (s.withSr { s.sr with serr := ErrorCode.bits .writeFailure, sstate := .failed })

/-- R149 SR.RDLEN. -/
def execSrRdlen (s : State) : Result :=
  if s.sr.sstate = .idle ∨ s.sr.sstate = .failed then raise .badState s
  else complete s.sr.len s

/-- R150 SR.RDPOS. -/
def execSrRdpos (s : State) : Result := complete s.sr.pos s

/-- R151 SR.STAT. -/
def execSrStat (s : State) : Result := complete (srStatus s.sr) s

end Sys2Proof.Machine
end

