-- ==== Sys2Proof/Machine/System.lean ====
section
/-! DEFINITION. The commands of no unit (spec/43_system.md). -/

namespace Sys2Proof.Machine

/-- R210 NOP. -/
def execNop (s : State) : Result := complete 0 s

/-- R211 GSTAT. -/
def execGstat (s : State) : Result := complete (globalStatus s.log) s

end Sys2Proof.Machine
end

