-- ==== Sys2Proof/Machine/Dispatch.lean ====
section
/-! DEFINITION. The effect of a legal command (R84): one arm per constructor, in the table's order. -/

namespace Sys2Proof.Machine

/-- The transaction of a decoded command whose `din` is on the port (R80). -/
def exec (i : Instr) (s : State) : Host.Outcome State Fault Refusal :=
  match i with
  -- 0x0_ global
  | .nop => Sys2Proof.Machine.execNop s
  | .gstat => Sys2Proof.Machine.execGstat s
  -- 0x1_ PCA and TBL
  | .pcaClr => Sys2Proof.Machine.execPcaClr s
  | .pcaPush imm8 => Sys2Proof.Machine.execPcaPush imm8 s
  | .pcaEnd => Sys2Proof.Machine.execPcaEnd s
  | .pcaFail => Sys2Proof.Machine.execPcaFail s
  | .pcaRd0 => Sys2Proof.Machine.execPcaRd0 s
  | .pcaRd1 => Sys2Proof.Machine.execPcaRd1 s
  | .pcaStat => Sys2Proof.Machine.execPcaStat s
  | .tblRd imm8 => Sys2Proof.Machine.execTblRd imm8 s
  -- 0x2_ SR
  | .srLd0 => Sys2Proof.Machine.execSrLd0 s
  | .srLd1 => Sys2Proof.Machine.execSrLd1 s
  | .srStart => Sys2Proof.Machine.execSrStart s
  | .srPull => Sys2Proof.Machine.execSrPull s
  | .srFail => Sys2Proof.Machine.execSrFail s
  | .srRdlen => Sys2Proof.Machine.execSrRdlen s
  | .srRdpos => Sys2Proof.Machine.execSrRdpos s
  | .srStat => Sys2Proof.Machine.execSrStat s
  -- 0x3_ LC
  | .lcClr => Sys2Proof.Machine.execLcClr s
  | .lcLd0 => Sys2Proof.Machine.execLcLd0 s
  | .lcLd1 => Sys2Proof.Machine.execLcLd1 s
  | .lcPutc imm8 => Sys2Proof.Machine.execLcPutc imm8 s
  | .lcEnc => Sys2Proof.Machine.execLcEnc s
  | .lcDec => Sys2Proof.Machine.execLcDec s
  | .lcGetc => Sys2Proof.Machine.execLcGetc s
  | .lcRd0 => Sys2Proof.Machine.execLcRd0 s
  | .lcRd1 => Sys2Proof.Machine.execLcRd1 s
  | .lcRdlen => Sys2Proof.Machine.execLcRdlen s
  | .lcStat => Sys2Proof.Machine.execLcStat s

end Sys2Proof.Machine
end

