-- ==== Sys2Proof/Machine/Step.lean ====
section
/-! DEFINITION. One step: the core takes the next input off its port (R70, R80). There is no program
counter and nothing is fetched (R21, R75): the pending list stands for what the host has issued. -/

namespace Sys2Proof.Machine

/-- One input: nothing pending leaves the state as it is (R237); a reset event resets (R250); a
command word is decoded (R90) and run as one atomic transaction (R67). -/
def step (s : State) : Host.Outcome State Fault Refusal :=
  match s.port.pending with
  | [] => .next s
  | .reset :: rest => .next (s.takeReset rest)
  | .command cmd din :: rest =>
    match decode cmd with
    | .ok i => exec i (s.accept din rest)
    | .error e => rejectIllegal e (s.accept din rest)

/-- The state in which the host has issued the word `w` (its bits above `nbits` zero) as the next
command, with `din` = 0, ahead of what it had issued before (notes/assumptions/13.md). -/
def State.withFetchWord (s : State) (nbits w : Nat) : State :=
  { s with port := { s.port with
      pending := .command (BitVec.ofNat 32 (w % 2 ^ nbits)) 0 :: s.port.pending } }

end Sys2Proof.Machine
end

