-- ==== Sys2Proof/Machine/Assembly.lean ====
section
/-! DEFINITION. What the host's assembler puts on the command port: a command with its operand (R83),
the pseudo-instructions of R92, and the line syntax and listing of R91 (spec/30_encoding.md). The
core never sees a pseudo-instruction or a line of text: all of this ends in `Input`s. What R91
leaves open is DESIGN CHOICE (safe: no step depends on it), notes/assumptions/14.md. -/

namespace Sys2Proof.Machine

/-- The transaction that issues command `i` with data operand `din` (R80, R91). -/
def issue (i : Instr) (din : Count) : Input := .command (encode i) din

/-- The pseudo-instructions of R92. -/
inductive Pseudo where
  | pcaPushs (s : ByteString)
  | pcaCount (s : ByteString)
  | srStream (c0 c1 : Count)
  | srPulln (n : Nat)
  | lcPuts (s : ByteString)
  | lcEncode (c0 c1 : Count) (f : ByteString)
  | lcDecode (p : ByteString)
  | lcGetn (n : Nat)
  deriving DecidableEq, Repr

/-- `PCA.PUSHS "s"` (R92). -/
def expandPushs (s : ByteString) : List Input := s.map fun b => issue (.pcaPush b) 0

/-- `LC.PUTS "s"` (R92). -/
def expandPuts (s : ByteString) : List Input := s.map fun b => issue (.lcPutc b) 0

/-- The expansion column of R92. -/
def expandPseudo : Pseudo → List Input
  | .pcaPushs s => expandPushs s
  | .pcaCount s => [issue .pcaClr 0] ++ expandPushs s ++ [issue .pcaEnd 0]
  | .srStream c0 c1 => [issue .srLd0 c0, issue .srLd1 c1, issue .srStart 0]
  | .srPulln n => List.replicate n (issue .srPull 0)
  | .lcPuts s => expandPuts s
  | .lcEncode c0 c1 f =>
    [issue .lcClr 0, issue .lcLd0 c0, issue .lcLd1 c1] ++ expandPuts f ++ [issue .lcEnc 0]
  | .lcDecode p => [issue .lcClr 0] ++ expandPuts p ++ [issue .lcDec 0]
  | .lcGetn n => List.replicate n (issue .lcGetc 0)

/-- The ASCII bytes of a text (R13). -/
def ascii (t : String) : ByteString := t.toList.map fun c => BitVec.ofNat 8 c.toNat

/-- The mnemonic of a command, as R84 spells it. -/
def mnemonic : Instr → String
  | .nop => "NOP"
  | .gstat => "GSTAT"
  | .pcaClr => "PCA.CLR"
  | .pcaPush _ => "PCA.PUSH"
  | .pcaEnd => "PCA.END"
  | .pcaFail => "PCA.FAIL"
  | .pcaRd0 => "PCA.RD0"
  | .pcaRd1 => "PCA.RD1"
  | .pcaStat => "PCA.STAT"
  | .tblRd _ => "TBL.RD"
  | .srLd0 => "SR.LD0"
  | .srLd1 => "SR.LD1"
  | .srStart => "SR.START"
  | .srPull => "SR.PULL"
  | .srFail => "SR.FAIL"
  | .srRdlen => "SR.RDLEN"
  | .srRdpos => "SR.RDPOS"
  | .srStat => "SR.STAT"
  | .lcClr => "LC.CLR"
  | .lcLd0 => "LC.LD0"
  | .lcLd1 => "LC.LD1"
  | .lcPutc _ => "LC.PUTC"
  | .lcEnc => "LC.ENC"
  | .lcDec => "LC.DEC"
  | .lcGetc => "LC.GETC"
  | .lcRd0 => "LC.RD0"
  | .lcRd1 => "LC.RD1"
  | .lcRdlen => "LC.RDLEN"
  | .lcStat => "LC.STAT"

/-- The system, PCA and TBL commands, with byte operand 0 where they take one (R84). -/
def lowCommands : List Instr :=
  [.nop, .gstat, .pcaClr, .pcaPush 0, .pcaEnd, .pcaFail, .pcaRd0, .pcaRd1, .pcaStat, .tblRd 0]

/-- The SR commands (R84). -/
def srCommands : List Instr :=
  [.srLd0, .srLd1, .srStart, .srPull, .srFail, .srRdlen, .srRdpos, .srStat]

/-- The LC commands, with byte operand 0 where they take one (R84). -/
def lcCommands : List Instr :=
  [.lcClr, .lcLd0, .lcLd1, .lcPutc 0, .lcEnc, .lcDec, .lcGetc, .lcRd0, .lcRd1, .lcRdlen, .lcStat]

/-- Every command once (R84). -/
def commands : List Instr := lowCommands ++ srCommands ++ lcCommands

/-- The operand a line gives after its mnemonic (R91). -/
inductive OperandKind where
  | none | byte | din
  deriving DecidableEq, Repr

/-- Which operand a command takes (R83). -/
def operandKind : Instr → OperandKind
  | .pcaPush _ | .tblRd _ | .lcPutc _ => .byte
  | .srLd0 | .srLd1 | .lcLd0 | .lcLd1 => .din
  | _ => .none

/-- The command with its byte operand replaced. -/
def withByte (i : Instr) (b : Byte) : Instr :=
  match i with
  | .pcaPush _ => .pcaPush b
  | .tblRd _ => .tblRd b
  | .lcPutc _ => .lcPutc b
  | j => j

/-- The rest of a decimal number after a value already read. Leading zeros change nothing
(DESIGN CHOICE, notes/assumptions/14.md). -/
def decimalFrom : Nat → ByteString → Option Nat
  | v, [] => some v
  | v, c :: cs =>
    if 0x30 ≤ c.toNat ∧ c.toNat ≤ 0x39 then decimalFrom (10 * v + (c.toNat - 0x30)) cs else none

/-- A number of R91: decimal, or hexadecimal after `0x`, not above 2^64 - 1. R91 says neither how many
digits nor which: leading zeros are allowed in both forms, and hex digits in either case
(DESIGN CHOICE, notes/assumptions/14.md). -/
def parseNumber (t : ByteString) : Option Nat :=
  if t.take 2 = ascii "0x" then (hexval (t.drop 2)).map BitVec.toNat
  else if t = [] then none
  else (decimalFrom 0 t).filter fun v => v ≤ 2 ^ 64 - 1

/-- What may stand after a line's last word: spaces, then nothing or a comment (R91). That no space
is needed before the ';' is DESIGN CHOICE, notes/assumptions/14.md. -/
def endsLine (t : ByteString) : Bool :=
  match t.dropWhile (· == 0x20) with
  | [] => true
  | c :: _ => c == 0x3B

/-- A byte that ends a word of a line: a space or the ';' of a comment (DESIGN CHOICE: no tab,
notes/assumptions/14.md). -/
def wordEnd (c : Byte) : Bool := c == 0x20 || c == 0x3B

/-- The word at the start of a text, and what follows it. -/
def firstWord (t : ByteString) : ByteString × ByteString :=
  (t.takeWhile (!wordEnd ·), t.dropWhile (!wordEnd ·))

/-- A character literal: an ASCII character between apostrophes (R91); any character below 0x80, the
space, ';' and the apostrophe included (DESIGN CHOICE, notes/assumptions/14.md). -/
def parseCharLiteral (t : ByteString) : Option Nat :=
  match t with
  | [a, c, b] => if a = 0x27 ∧ b = 0x27 ∧ c.toNat < 128 then some c.toNat else none
  | _ => none

/-- The operand of a line: its value and the text after it; a byte operand may be a character
literal (R91). -/
def parseOperand (k : OperandKind) (t : ByteString) : Option (Nat × ByteString) :=
  match k with
  | .none => some (0, t)
  | .din => (parseNumber (firstWord t).1).map fun v => (v, (firstWord t).2)
  | .byte =>
    match parseCharLiteral (t.take 3) with
    | some v => some (v, t.drop 3)
    | none =>
      ((parseNumber (firstWord t).1).filter fun v => v ≤ 255).map fun v => (v, (firstWord t).2)

/-- R91: the transaction a line of assembly stands for, none where it is no command line. The
assembler puts a count operand on `din` with IMM8 = 0, and a byte operand into IMM8. The mnemonic
stands at the start of the line: a line that begins with a space gives none, and so does an empty
line, a comment alone, or a line with an operand too many (DESIGN CHOICE, notes/assumptions/14.md). -/
def assembleLine (line : ByteString) : Option Input :=
  match commands.find? fun i => ascii (mnemonic i) == (firstWord line).1 with
  | none => none
  | some i =>
    match parseOperand (operandKind i) ((firstWord line).2.dropWhile (· == 0x20)) with
    | none => none
    | some (v, after) =>
      if endsLine after then
        some (issue (withByte i (BitVec.ofNat 8 v))
          (if operandKind i = .din then BitVec.ofNat 64 v else 0))
      else none

/-- `n` hexadecimal digits of `v`, most significant first. -/
def fixedHex : (n v : Nat) → ByteString
  | 0, _ => []
  | n + 1, v => fixedHex n (v / 16) ++ [hexchar (v % 16)]

/-- R91: the listing line of a command with its `din`, shown as 0 where the command ignores it. -/
def listingLine (i : Instr) (din : Count) : ByteString :=
  ascii "cmd=" ++ fixedHex 8 (encode i).toNat ++ ascii " din=" ++
    fixedHex 16 (if operandKind i = .din then din.toNat else 0)

end Sys2Proof.Machine
end

