-- ==== Sys2Proof/Machine/Instances.lean ====
section
/-! DEFINITION. Several instances of the core (R235, spec/60_exceptions.md; `Instances` of R8): copies
that share nothing mutable, each with its own state and its own port. Which instance takes an input
next is not fixed (R77), so it is an argument. -/

namespace Sys2Proof.Machine

/-- The states of the instances of a system, by their place in the list. -/
abbrev System := List State

/-- R8: `Instances >= 1`, and each instance is in a configuration R8 allows. -/
abbrev System.WellFormed (y : System) : Prop := 1 ≤ y.length ∧ ∀ s ∈ y, s.cfg.WellFormed

/-- The instances right after reset (R51, R235), one for each configuration. -/
def System.resetWith (cs : List Config) : System := cs.map State.resetWith

/-- The host issues one more input to instance `k` (R80, R250). -/
def System.issue (y : System) (k : Nat) (input : Input) : System :=
  y.modify k fun s => { s with port := { s.port with pending := s.port.pending ++ [input] } }

/-- Instance `k` takes its next input; none where there is no such instance, or it stops. -/
def System.stepAt (y : System) (k : Nat) : Option System :=
  match y[k]? with
  | none => none
  | some s =>
    match step s with
    | .next t => some (y.set k t)
    | .fault _ => none
    | .refused _ => none

end Sys2Proof.Machine
end

