-- ==== Sys2Proof/Safety.lean ====
section
/-! DEFINITION. The terms claims are stated in: how a command ends, written apart from the model's own
operations; which commands belong to which unit; and the invariants of the machine that the spec
states (R25, R26, R28, R31, R33, R35, R36, R38, R40 to R42 of spec/10_state.md). -/

namespace Sys2Proof.Machine

/-- The state after a response (`resp`, `dout`) is given and nothing else changes (R80). -/
def State.answered (s : State) (resp : BitVec 4) (dout : Count) : State :=
  { s with port :=
    { pending := s.port.pending, din := s.port.din
      responses := s.port.responses ++ [{ resp := resp, dout := dout }] } }

/-- The state after a command ends with error code `k`, its other writes being in `s` already:
GERR bit k is set, LASTERR is k, the response is k with `dout` = 0 (R221, R222). -/
def State.erred (s : State) (k : BitVec 4) : State :=
  State.answered { s with log := { gerr := s.log.gerr ||| (1#16 <<< k), lasterr := k } } k 0

/-- The state with the next input taken off the port and `din` on its data line (R80). -/
def State.taken (s : State) (din : Count) (rest : List Input) : State :=
  { s with port := { pending := rest, din := din, responses := s.port.responses } }

/-- The units a command can belong to (R15, R84). -/
inductive UnitName where
  | system | pca | sr | lc
  deriving DecidableEq, Repr

/-- R84: the unit of a command, by the group of its OP value. TBL.RD is in PCA's group. -/
def unitName : Instr → UnitName
  | .nop | .gstat => .system
  | .pcaClr | .pcaPush _ | .pcaEnd | .pcaFail | .pcaRd0 | .pcaRd1 | .pcaStat | .tblRd _ => .pca
  | .srLd0 | .srLd1 | .srStart | .srPull | .srFail | .srRdlen | .srRdpos | .srStat => .sr
  | .lcClr | .lcLd0 | .lcLd1 | .lcPutc _ | .lcEnc | .lcDec | .lcGetc | .lcRd0 | .lcRd1 | .lcRdlen
  | .lcStat => .lc

/-- R68's list of idempotent reads. -/
def idempotentReads : List Instr :=
  [.pcaRd0, .pcaRd1, .pcaStat, .srRdlen, .srRdpos, .srStat, .lcRd0, .lcRd1, .lcRdlen, .lcStat,
    .gstat]

/-- A command of R68's list; TBL.RD is on it with any operand. -/
def IsIdempotentRead (i : Instr) : Prop := i ∈ idempotentReads ∨ ∃ b, i = .tblRd b

/-- R88: the four commands that read `din`. -/
def readsDin (i : Instr) : Bool := i == .srLd0 || i == .srLd1 || i == .lcLd0 || i == .lcLd1

/-- R84's "returns" column: the commands that return data in `dout`. -/
def ReturnsData (i : Instr) : Prop := IsIdempotentRead i ∨ i = .srPull ∨ i = .lcGetc

/-- R25, R26: GERR's fixed bits, and LASTERR names the last bit that was set. -/
structure ErrorLog.Inv (g : ErrorLog) : Prop where
  bit_zero : g.gerr.getLsbD 0 = false
  high_bits : ∀ k, 10 ≤ k → g.gerr.getLsbD k = false
  lasterr_le : g.lasterr.toNat ≤ 9
  lasterr_logged : g.lasterr ≠ 0 → g.gerr.getLsbD g.lasterr.toNat = true
  none_logged : g.lasterr = 0 → g.gerr = 0

/-- R28, R31. -/
structure Pca.Inv (p : Pca) : Prop where
  accb_mod : p.accb.toNat % 8 = 0
  acc1_le : p.acc1.toNat ≤ p.accb.toNat
  accb_le : p.accb.toNat ≤ 2 ^ 64 - 8
  at_rest : p.pstate = .idle ∨ p.pstate = .failed → p.acc1 = 0 ∧ p.accb = 0
  perr_failed : p.pstate = .failed → p.perr = 1 ∨ p.perr = 5
  perr_zero : p.pstate ≠ .failed → p.perr = 0

/-- R33, R35, R36. -/
structure Sr.Inv (r : Sr) : Prop where
  pos_le : r.pos.toNat ≤ r.len.toNat
  pos_run : r.sstate = .run → r.pos.toNat < r.len.toNat
  pos_done : r.sstate = .done → r.pos = r.len
  no_stream : r.sstate = .idle ∨ r.serr = 4 → r.pos = 0 ∧ r.len = 0
  serr_failed : r.sstate = .failed → r.serr = 2 ∨ r.serr = 4
  serr_zero : r.sstate ≠ .failed → r.serr = 0
  z_lt : r.z.toNat < 2 ^ 61
  o_lt : r.o.toNat < 2 ^ 61
  bnd_eq : r.bnd = decide (0 < r.e0.toNat + r.e1.toNat)
  len_eq : r.len.toNat = r.z.toNat + r.bnd.toNat + r.o.toNat

/-- R38, R40, R41, R42, for a capacity `cap` of the buffers. -/
structure Lc.Inv (cap : Nat) (l : Lc) : Prop where
  ibuf_le : l.ibuf.length ≤ cap
  obuf_le : l.obuf.length ≤ cap
  opos_le : l.opos ≤ l.obuf.length
  lerr_failed : l.lstate = .failed → l.lerr = 3 ∨ l.lerr = 9
  lerr_zero : l.lstate ≠ .failed → l.lerr = 0
  dvalid_out : l.dvalid = true → l.lstate = .out
  not_valid : l.dvalid = false → l.dc0 = 0 ∧ l.dc1 = 0
  no_output : l.lstate ≠ .out → l.obuf = [] ∧ l.opos = 0
  failed_empty : l.lstate = .failed → l.ibuf = []

/-- The invariant of the machine: every register keeps to what the spec says it may hold, in an
allowed configuration (R8). -/
structure State.Inv (s : State) : Prop where
  cfg : s.cfg.WellFormed
  log : s.log.Inv
  pca : s.pca.Inv
  sr : s.sr.Inv
  lc : s.lc.Inv s.cfg.lcBufBytes

end Sys2Proof.Machine
end

