-- ==== Sys2Proof/Certificates/Slice0/Obligations.lean ====
section
/-! DEFINITION. The statements about the machine, each from the spec's numbered rules (OBLIGATIONS.json
lists them with the rules they cite). -/

open Sys2Proof Sys2Proof.Machine

/-! ## Encoding (spec/30_encoding.md) -/

/-- R82, R84, R90: a word decodes to a command exactly when it is that command's encoding, so
decoding drops no bit and two words never mean the same command. -/
def Obligations.DecodeAndEncodeAgree : Prop :=
  ∀ (w : CmdWord) (i : Instr), decode w = .ok i ↔ encode i = w

/-- R90: the checks in their order, the first that fails deciding. The conditions are the words of
R85 to R87 (`WellFormed.lean`), not the decoder's own. -/
def Obligations.DecodeChecksInOrder : Prop :=
  ∀ w : CmdWord,
    let f := fieldsOf w
    (decode w = .error .unlistedOp ↔ f.opListed = false) ∧
    (decode w = .error .reservedBits ↔ f.opListed = true ∧ f.rsvClear = false) ∧
    (decode w = .error .unusedByte ↔
      f.opListed = true ∧ f.rsvClear = true ∧ f.immAllowed = false) ∧
    ((∃ i, decode w = .ok i) ↔ f.wellFormed = true)

/-- R85, R86, R87: a word that is illegal for any of the three reasons ends with ILLEGAL_COMMAND
(7), changing only the error log. The pending list it is issued on is the model's
(notes/assumptions/1.md). -/
def Obligations.IllegalWordsAreRejected : Prop :=
  ∀ (s : State) (w : CmdWord) (din : Count) (rest : List Input),
    s.port.pending = .command w din :: rest → (fieldsOf w).wellFormed = false →
      step s = .next ((s.taken din rest).erred 7)

/-- R84, "Match and mask": the 26 commands without a byte operand, each with its match word. -/
def Obligations.MatchWordsOfPlainCommands : Prop :=
  ∀ p ∈ ([(.nop, 0x00000000), (.gstat, 0x01000000), (.pcaClr, 0x10000000), (.pcaEnd, 0x12000000),
      (.pcaFail, 0x13000000), (.pcaRd0, 0x14000000), (.pcaRd1, 0x15000000), (.pcaStat, 0x16000000),
      (.srLd0, 0x20000000), (.srLd1, 0x21000000), (.srStart, 0x22000000), (.srPull, 0x23000000),
      (.srFail, 0x24000000), (.srRdlen, 0x25000000), (.srRdpos, 0x26000000), (.srStat, 0x27000000),
      (.lcClr, 0x30000000), (.lcLd0, 0x31000000), (.lcLd1, 0x32000000), (.lcEnc, 0x34000000),
      (.lcDec, 0x35000000), (.lcGetc, 0x36000000), (.lcRd0, 0x37000000), (.lcRd1, 0x38000000),
      (.lcRdlen, 0x39000000), (.lcStat, 0x3A000000)] : List (Instr × CmdWord)),
    ∀ w : CmdWord, decode w = .ok p.1 ↔ w &&& 0xFFFFFFFF = p.2

/-- R83, R84, R87: the three commands with a byte operand: mask 0xFFFFFF00, and the operand is
bits 7:0, at every value. -/
def Obligations.MatchWordsOfByteCommands : Prop :=
  ∀ (w : CmdWord) (b : Byte),
    (decode w = .ok (.pcaPush b) ↔ w &&& 0xFFFFFF00 = 0x11000000 ∧ b = w.extractLsb' 0 8) ∧
    (decode w = .ok (.tblRd b) ↔ w &&& 0xFFFFFF00 = 0x17000000 ∧ b = w.extractLsb' 0 8) ∧
    (decode w = .ok (.lcPutc b) ↔ w &&& 0xFFFFFF00 = 0x33000000 ∧ b = w.extractLsb' 0 8)

/-- R93: the sample words. -/
def Obligations.SampleWordsDecode : Prop :=
  decode 0x00000000 = .ok .nop ∧ decode 0x110000C3 = .ok (.pcaPush 0xC3) ∧
  decode 0x17000070 = .ok (.tblRd 0x70) ∧ decode 0x22000000 = .ok .srStart ∧
  decode 0x3300002F = .ok (.lcPutc 0x2F) ∧ decode 0x3A000000 = .ok .lcStat ∧
  decode 0x40000000 = .error .unlistedOp ∧ decode 0x10000100 = .error .reservedBits ∧
  decode 0x12000001 = .error .unusedByte

/-! ## The step and the port -/

/-- R67, R70, R80: a step on a legal command word is that command's effect, on the state with the
command taken off the port and its `din` on the data line. The pending list and the data line are
the model's form of the port (notes/assumptions/1.md and 3.md). -/
def Obligations.StepRunsDecodedCommand : Prop :=
  ∀ (s : State) (w : CmdWord) (din : Count) (rest : List Input) (i : Instr),
    s.port.pending = .command w din :: rest → decode w = .ok i →
      step s = exec i (s.taken din rest)

/-- R237: with nothing issued the core changes nothing. That a step exists then at all is the
model's choice (notes/assumptions/15.md). -/
def Obligations.IdleCoreHoldsState : Prop :=
  ∀ s : State, s.port.pending = [] → step s = .next s

/-- R250: a reset event gives every register its value of R51, gives no response, and leaves the
parameters and the later inputs alone (that the port and its last `din` stay is the model's choice,
notes/assumptions/4.md). -/
def Obligations.ResetEventResetsEveryRegister : Prop :=
  ∀ (s : State) (rest : List Input), s.port.pending = .reset :: rest →
    step s = .next
      { cfg := s.cfg
        log := { gerr := 0, lasterr := 0 }
        pca := { pstate := .idle, perr := 0, acc1 := 0, accb := 0 }
        sr := { sstate := .idle, serr := 0, c0 := 0, c1 := 0, z := 0, e0 := 0, e1 := 0,
                bnd := false, o := 0, len := 0, pos := 0 }
        lc := { lstate := .ready, lerr := 0, ec0 := 0, ec1 := 0, ibuf := [], obuf := [],
                opos := 0, dc0 := 0, dc1 := 0, dvalid := false }
        port := { pending := rest, din := s.port.din, responses := s.port.responses } }

/-- R51: the state after reset, register by register, in every configuration; and TBL. -/
def Obligations.ResetValues : Prop :=
  ∀ c : Config,
    let s := State.resetWith c
    s.log = ⟨0, 0⟩ ∧ s.pca.pstate = .idle ∧ s.pca.perr = 0 ∧ s.pca.acc1 = 0 ∧ s.pca.accb = 0 ∧
    s.sr.sstate = .idle ∧ s.sr.serr = 0 ∧ s.sr.c0 = 0 ∧ s.sr.c1 = 0 ∧ s.sr.z = 0 ∧
    s.sr.e0 = 0 ∧ s.sr.e1 = 0 ∧ s.sr.bnd = false ∧ s.sr.o = 0 ∧ s.sr.len = 0 ∧ s.sr.pos = 0 ∧
    s.lc.lstate = .ready ∧ s.lc.lerr = 0 ∧ s.lc.ec0 = 0 ∧ s.lc.ec1 = 0 ∧ s.lc.ibuf = [] ∧
    s.lc.obuf = [] ∧ s.lc.opos = 0 ∧ s.lc.dc0 = 0 ∧ s.lc.dc1 = 0 ∧ s.lc.dvalid = false ∧
    (∀ b : Byte, (tbl b).toNat = (List.finRange 8).countP fun i => b[i])

/-- R251: which commands are rejected and which work right after reset. The commands R251 does not
name follow from the state tables, and LC.DEC works on the empty path, which is no locator. -/
def Obligations.CommandsAfterReset : Prop :=
  ∀ c : Config, c.WellFormed → ∀ i : Instr, ∀ s : State,
    s.log = ErrorLog.reset → s.pca = Pca.reset → s.sr = Sr.reset → s.lc = Lc.reset → s.cfg = c →
      if i ∈ [.pcaRd0, .pcaRd1, .srPull, .srRdlen, .lcGetc, .lcRd0, .lcRd1, .lcRdlen] then
        exec i s = .next (s.erred 6)
      else if i ∈ [.nop, .gstat, .pcaStat, .srStat, .lcStat, .srRdpos, .srLd0, .srLd1, .lcLd0,
          .lcLd1, .pcaClr, .srStart, .lcClr, .lcEnc] ∨ (∃ b, i = .tblRd b ∨ i = .lcPutc b) then
        ∃ t d, exec i s = .next t ∧ t.port.responses = s.port.responses ++ [⟨0, d⟩] ∧
          (i = .srRdpos → d = 0)
      else if i = .lcDec then
        ∃ t, exec i s = .next t ∧ t.port.responses = s.port.responses ++ [⟨3, 0⟩]
      else exec i s = .next (s.erred 6)

/-- R80: a step never stops: in every state that keeps the spec's invariants it answers a next
state. (R41's part of the invariant rules out the model's one fault, notes/assumptions/7.md.) -/
def Obligations.StepIsTotal : Prop :=
  ∀ s : State, s.Inv → ∃ t, step s = .next t

/-- R25, R26, R28, R31, R33, R35, R36, R38, R40 to R42: every step keeps the machine's invariant. -/
def Obligations.StepKeepsInvariant : Prop :=
  ∀ s t : State, s.Inv → step s = .next t → t.Inv

/-- The state after reset meets the invariant, in every allowed configuration. -/
def Obligations.ResetMeetsInvariant : Prop :=
  ∀ c : Config, c.WellFormed → (State.resetWith c).Inv

/-- R20: the configuration is a parameter: no step changes it. That State carries it is the model's
choice (notes/assumptions/5.md). -/
def Obligations.ConfigurationNeverChanges : Prop :=
  ∀ s t : State, step s = .next t → t.cfg = s.cfg

/-- R80, R220, R221, R222: each command word takes itself off the port and gives exactly one
response. An OK response leaves the error log alone; an error response has code 1 to 9 and
`dout` = 0, sets its GERR bit and no other, and is LASTERR. The pending and response lists are the
model's form of the port (notes/assumptions/1.md and 2.md). -/
def Obligations.OneResponsePerCommand : Prop :=
  ∀ (s t : State) (w : CmdWord) (din : Count) (rest : List Input),
    s.port.pending = .command w din :: rest → step s = .next t →
      t.port.pending = rest ∧
      ∃ r : Response, t.port.responses = s.port.responses ++ [r] ∧
        ((r.resp = 0 ∧ t.log = s.log) ∨
          (1 ≤ r.resp.toNat ∧ r.resp.toNat ≤ 9 ∧ r.dout = 0 ∧ t.log.lasterr = r.resp ∧
            ∀ k, t.log.gerr.getLsbD k = (s.log.gerr.getLsbD k || k == r.resp.toNat)))

/-- R25: only a reset event clears a bit of GERR. -/
def Obligations.GerrIsSticky : Prop :=
  ∀ (s t : State) (k : Nat), step s = .next t → s.log.gerr.getLsbD k = true →
    t.log.gerr.getLsbD k = true ∨ ∃ rest, s.port.pending = .reset :: rest

/-- R72: a command to one unit never changes another unit's registers. -/
def Obligations.UnitsAreIndependent : Prop :=
  ∀ (i : Instr) (s t : State), exec i s = .next t →
    (unitName i ≠ .pca → t.pca = s.pca) ∧ (unitName i ≠ .sr → t.sr = s.sr) ∧
    (unitName i ≠ .lc → t.lc = s.lc)

/-- R47, R72: no command but GSTAT depends on the error log: with any other log the command does
the same to the units and gives the same response. -/
def Obligations.OnlyGstatReadsLog : Prop :=
  ∀ (i : Instr) (s t : State) (g : ErrorLog), i ≠ .gstat → exec i s = .next t →
    ∃ t', exec i { s with log := g } = .next t' ∧
      t'.pca = t.pca ∧ t'.sr = t.sr ∧ t'.lc = t.lc ∧ t'.port = t.port

/-- R72: a command of one unit does not depend on the registers of the others: with any other
values there it does the same to its own unit, to the log and to the port. -/
def Obligations.OtherUnitsAreNotRead : Prop :=
  ∀ (i : Instr) (s t u : State), exec i s = .next t → u.cfg = s.cfg → u.log = s.log →
    u.port = s.port → (unitName i = .pca → u.pca = s.pca) → (unitName i = .sr → u.sr = s.sr) →
    (unitName i = .lc → u.lc = s.lc) →
      ∃ v, exec i u = .next v ∧ v.log = t.log ∧ v.port = t.port ∧
        (unitName i = .pca → v.pca = t.pca) ∧ (unitName i = .sr → v.sr = t.sr) ∧
        (unitName i = .lc → v.lc = t.lc)

/-- R224: a rejection (BAD_STATE, ILLEGAL_COMMAND or END_OF_STREAM) changes no unit register. -/
def Obligations.RejectionsChangeNoUnit : Prop :=
  ∀ (s t : State) (w : CmdWord) (din : Count) (rest : List Input) (r : Response),
    s.port.pending = .command w din :: rest → step s = .next t →
    t.port.responses = s.port.responses ++ [r] → r.resp = 6 ∨ r.resp = 7 ∨ r.resp = 8 →
      t.pca = s.pca ∧ t.sr = s.sr ∧ t.lc = s.lc

/-- R223: what a fatal error does to its unit, and that a FAILED unit is left only through its
start command. -/
def Obligations.FatalErrorsFailTheirUnit : Prop :=
  ∀ (i : Instr) (s t : State) (r : Response), exec i s = .next t →
    t.port.responses = s.port.responses ++ [r] →
      (r.resp = 1 ∨ r.resp = 5 → t.pca = ⟨.failed, r.resp, 0, 0⟩ ∧ t.sr = s.sr ∧ t.lc = s.lc) ∧
      (r.resp = 2 → t.sr = { s.sr with sstate := .failed, serr := 2 } ∧
        t.pca = s.pca ∧ t.lc = s.lc) ∧
      (r.resp = 4 → t.sr = { s.sr with
          sstate := .failed, serr := 4, z := 0, e0 := 0, e1 := 0, bnd := false, o := 0,
          len := 0, pos := 0 } ∧ t.pca = s.pca ∧ t.lc = s.lc) ∧
      (r.resp = 3 ∨ r.resp = 9 → t.lc = { s.lc with
          lstate := .failed, lerr := r.resp, ibuf := [], obuf := [], opos := 0, dc0 := 0,
          dc1 := 0, dvalid := false } ∧ t.pca = s.pca ∧ t.sr = s.sr) ∧
      (s.pca.pstate = .failed → t.pca.pstate = .failed ∨ i = .pcaClr) ∧
      (s.sr.sstate = .failed → t.sr.sstate = .failed ∨ i = .srStart) ∧
      (s.lc.lstate = .failed → t.lc.lstate = .failed ∨ i = .lcClr)

/-- R230: an error while a unit is already FAILED keeps the unit's first fatal cause. SR.START is the
start command of a FAILED SR: when it rejects unaligned counts (R141) it sets the new cause, 4. -/
def Obligations.FirstFatalCauseIsKept : Prop :=
  ∀ (i : Instr) (s t : State) (r : Response), exec i s = .next t →
    t.port.responses = s.port.responses ++ [r] → r.resp ≠ 0 →
      (s.pca.pstate = .failed → t.pca = s.pca) ∧
      (s.sr.sstate = .failed → if i = .srStart then r.resp = 4 ∧ t.sr.serr = 4 else t.sr = s.sr) ∧
      (s.lc.lstate = .failed → t.lc = s.lc)

/-- R68: the idempotent reads change no unit register; only a rejected one touches the log. -/
def Obligations.ReadsChangeNothing : Prop :=
  ∀ (i : Instr) (s t : State), IsIdempotentRead i → exec i s = .next t →
    t.pca = s.pca ∧ t.sr = s.sr ∧ t.lc = s.lc ∧
    (t.log = s.log ∨ t.port.responses = s.port.responses ++ [⟨6, 0⟩])

/-- R88: `din` is read only by the four LD commands, and `dout` is 0 for a command that returns
nothing and for every command that ends in error. -/
def Obligations.DinIsReadOnlyByLoads : Prop :=
  ∀ (i : Instr) (s t : State), exec i s = .next t →
    (readsDin i = false → ∀ d : Count,
      exec i { s with port := { s.port with din := d } } =
        .next { t with port := { t.port with din := d } }) ∧
    (∀ r : Response, t.port.responses = s.port.responses ++ [r] →
      ¬ ReturnsData i ∨ r.resp ≠ 0 → r.dout = 0)

/-- R111, R141, R171, C8: IDLE is reached only by reset, and READY only by LC.CLR or reset. -/
def Obligations.RestStatesAreNotReentered : Prop :=
  ∀ (i : Instr) (s t : State), exec i s = .next t →
    (t.pca.pstate = .idle → s.pca.pstate = .idle) ∧
    (t.sr.sstate = .idle → s.sr.sstate = .idle) ∧
    (t.lc.lstate = .ready → s.lc.lstate = .ready ∨ i = .lcClr)

/-- R8, R235: a step of one instance leaves every other instance as it is, is that instance's own
step, and keeps the system one R8 allows (at least one instance, each with an allowed configuration). A system as a list of states is the model's form (notes/assumptions/6.md). -/
def Obligations.InstancesShareNothing : Prop :=
  ∀ (y z : System) (k : Nat), y.stepAt k = some z →
    z.length = y.length ∧ (∀ j, j ≠ k → z[j]? = y[j]?) ∧
    (y.WellFormed → z.WellFormed) ∧
    ∃ s t, y[k]? = some s ∧ z[k]? = some t ∧ step s = .next t

/-! ## System commands (spec/43_system.md) -/

/-- R210: NOP returns OK with `dout` = 0 and changes nothing. -/
def Obligations.NopDoesNothing : Prop :=
  decode 0x00000000 = .ok .nop ∧ (∃ e, decode 0x00000001 = .error e) ∧
    ∀ s : State, exec .nop s = .next (s.answered 0 0)

/-- R46, R211: GSTAT returns GERR in bits 15:0 and LASTERR in bits 19:16, zeros above, and clears
neither. -/
def Obligations.GstatReadsLog : Prop :=
  decode 0x01000000 = .ok .gstat ∧
  ∀ s : State, ∃ d, exec .gstat s = .next (s.answered 0 d) ∧
    d.extractLsb' 0 16 = s.log.gerr ∧ d.extractLsb' 16 4 = s.log.lasterr ∧
    d.extractLsb' 20 44 = 0

/-- R27, R32, R37, R43, R44, R45: the three unit status words, field by field, with the 2-bit
values of the unit states. -/
def Obligations.UnitStatusWords : Prop :=
  decode 0x16000000 = .ok .pcaStat ∧ decode 0x27000000 = .ok .srStat ∧
  decode 0x3A000000 = .ok .lcStat ∧
  ∀ s : State,
    (∃ d, exec .pcaStat s = .next (s.answered 0 d) ∧
      (d.extractLsb' 0 2).toNat =
        (match s.pca.pstate with | .idle => 0 | .scan => 1 | .done => 2 | .failed => 3) ∧
      d.extractLsb' 2 2 = 0 ∧ d.extractLsb' 4 4 = s.pca.perr ∧ d.extractLsb' 8 56 = 0) ∧
    (∃ d, exec .srStat s = .next (s.answered 0 d) ∧
      (d.extractLsb' 0 2).toNat =
        (match s.sr.sstate with | .idle => 0 | .run => 1 | .done => 2 | .failed => 3) ∧
      d.getLsbD 2 = s.sr.bnd ∧ d.getLsbD 3 = false ∧ d.extractLsb' 4 4 = s.sr.serr ∧
      d.extractLsb' 8 3 = s.sr.e0 ∧ d.getLsbD 11 = false ∧ d.extractLsb' 12 3 = s.sr.e1 ∧
      d.extractLsb' 15 49 = 0) ∧
    (∃ d, exec .lcStat s = .next (s.answered 0 d) ∧
      (d.extractLsb' 0 2).toNat =
        (match s.lc.lstate with | .ready => 0 | .out => 1 | .failed => 2) ∧
      d.getLsbD 2 = s.lc.dvalid ∧ d.getLsbD 3 = false ∧ d.extractLsb' 4 4 = s.lc.lerr ∧
      d.extractLsb' 8 56 = 0)

/-! ## PCA and TBL (spec/40_popcount_accumulator.md) -/

/-- R112: TBL.RD returns the number of set bits of its operand, in every state. -/
def Obligations.TblRdReadsTable : Prop :=
  (∀ b : Byte, decode (0x17000000 ||| b.setWidth 32) = .ok (.tblRd b)) ∧
  ∀ (s : State) (b : Byte), ∃ d,
    exec (.tblRd b) s = .next (s.answered 0 d) ∧
      d.toNat = (List.finRange 8).countP fun i => b[i]

/-- R114: PCA.CLR. -/
def Obligations.PcaClrOpensScan : Prop :=
  decode 0x10000000 = .ok .pcaClr ∧
  ∀ s : State,
    (s.pca.pstate = .scan → exec .pcaClr s = .next (s.erred 6)) ∧
    (s.pca.pstate ≠ .scan → exec .pcaClr s = .next (State.answered
      { s with pca := { pstate := .scan, perr := 0, acc1 := 0, accb := 0 } } 0 0))

/-- R115, R116: PCA.PUSH, with its overflow. -/
def Obligations.PcaPushAccumulates : Prop :=
  (∀ b : Byte, decode (0x11000000 ||| b.setWidth 32) = .ok (.pcaPush b)) ∧
  ∀ (s : State) (b : Byte),
    (s.pca.pstate ≠ .scan → exec (.pcaPush b) s = .next (s.erred 6)) ∧
    (s.pca.pstate = .scan → s.pca.accb.toNat > 2 ^ 64 - 9 →
      exec (.pcaPush b) s = .next (State.erred
        { s with pca := { pstate := .failed, perr := 5, acc1 := 0, accb := 0 } } 5)) ∧
    (s.pca.pstate = .scan → s.pca.accb.toNat ≤ 2 ^ 64 - 9 → ∃ a1 ab : Count,
      exec (.pcaPush b) s = .next (State.answered
        { s with pca := { s.pca with acc1 := a1, accb := ab } } 0 0) ∧
      ab.toNat = s.pca.accb.toNat + 8 ∧
      (s.pca.acc1.toNat ≤ s.pca.accb.toNat →
        a1.toNat = s.pca.acc1.toNat + (List.finRange 8).countP fun i => b[i]))

/-- R117, R118: PCA.END and PCA.FAIL. -/
def Obligations.PcaEndAndFailCloseScan : Prop :=
  decode 0x12000000 = .ok .pcaEnd ∧ decode 0x13000000 = .ok .pcaFail ∧
  ∀ s : State,
    (s.pca.pstate = .scan →
      exec .pcaEnd s = .next (State.answered { s with pca := { s.pca with pstate := .done } } 0 0) ∧
      exec .pcaFail s = .next (State.erred
        { s with pca := { pstate := .failed, perr := 1, acc1 := 0, accb := 0 } } 1)) ∧
    (s.pca.pstate ≠ .scan →
      exec .pcaEnd s = .next (s.erred 6) ∧ exec .pcaFail s = .next (s.erred 6))

/-- R119, R120: PCA.RD0 and PCA.RD1. -/
def Obligations.PcaReadsCounts : Prop :=
  decode 0x14000000 = .ok .pcaRd0 ∧ decode 0x15000000 = .ok .pcaRd1 ∧
  ∀ s : State,
    (s.pca.pstate = .done →
      exec .pcaRd1 s = .next (s.answered 0 s.pca.acc1) ∧
      ∃ d, exec .pcaRd0 s = .next (s.answered 0 d) ∧
        (s.pca.acc1.toNat ≤ s.pca.accb.toNat → d.toNat = s.pca.accb.toNat - s.pca.acc1.toNat)) ∧
    (s.pca.pstate ≠ .done →
      exec .pcaRd0 s = .next (s.erred 6) ∧ exec .pcaRd1 s = .next (s.erred 6))

/-- R113: the counting law. From any state with no open scan, PCA.CLR, one PCA.PUSH for each of
the N bytes and PCA.END, issued on the port, all answer OK and leave PCA in DONE with ACC1 the sum
of the bytes' popcounts and ACCB = 8 N, for every N that the 64-bit counter holds. The pending and
response lists are the model's form of the port (notes/assumptions/1.md and 2.md). -/
def Obligations.CountingLaw : Prop :=
  ∀ (s : State) (bytes : ByteString) (rest : List Input),
    s.pca.pstate ≠ .scan → 8 * bytes.length ≤ 2 ^ 64 - 8 →
    s.port.pending = expandPseudo (.pcaCount bytes) ++ rest →
      ∃ t, core.run (bytes.length + 2) s = .next t ∧
        t.pca.pstate = .done ∧ t.pca.perr = 0 ∧
        t.pca.acc1.toNat = (bytes.map fun b => (List.finRange 8).countP fun i => b[i]).sum ∧
        t.pca.accb.toNat = 8 * bytes.length ∧
        t.port.responses = s.port.responses ++ List.replicate (bytes.length + 2) ⟨0, 0⟩ ∧
        t.port.pending = rest ∧ t.cfg = s.cfg ∧ t.log = s.log ∧ t.sr = s.sr ∧ t.lc = s.lc

/-! ## SR (spec/41_stream_reconstructor.md) -/

/-- R142, R143: SR.LD0 and SR.LD1. -/
def Obligations.SrLoadsCounts : Prop :=
  decode 0x20000000 = .ok .srLd0 ∧ decode 0x21000000 = .ok .srLd1 ∧
  ∀ s : State,
    (s.sr.sstate = .run →
      exec .srLd0 s = .next (s.erred 6) ∧ exec .srLd1 s = .next (s.erred 6)) ∧
    (s.sr.sstate ≠ .run →
      exec .srLd0 s = .next (State.answered { s with sr := { s.sr with c0 := s.port.din } } 0 0) ∧
      exec .srLd1 s = .next (State.answered { s with sr := { s.sr with c1 := s.port.din } } 0 0))

/-- R144, R145: SR.START, its geometry written as numbers. The sum of the alignment test is exact.
Unaligned counts are rejected under `Reject` and run under `Trust`. -/
def Obligations.SrStartFixesGeometry : Prop :=
  decode 0x22000000 = .ok .srStart ∧
  ∀ s : State,
    (s.sr.sstate = .run → exec .srStart s = .next (s.erred 6)) ∧
    (s.sr.sstate ≠ .run → (s.sr.c0.toNat + s.sr.c1.toNat) % 8 ≠ 0 →
      s.cfg.srUnalignedPolicy = .reject →
      exec .srStart s = .next (State.erred { s with sr := { s.sr with
          sstate := .failed, serr := 4, z := 0, e0 := 0, e1 := 0, bnd := false, o := 0,
          len := 0, pos := 0 } } 4)) ∧
    (s.sr.sstate ≠ .run →
      (s.sr.c0.toNat + s.sr.c1.toNat) % 8 = 0 ∨ s.cfg.srUnalignedPolicy = .trust →
      ∃ r : Sr, exec .srStart s = .next (State.answered { s with sr := r } 0 0) ∧
        r.c0 = s.sr.c0 ∧ r.c1 = s.sr.c1 ∧ r.serr = 0 ∧ r.pos = 0 ∧
        r.z.toNat = s.sr.c0.toNat / 8 ∧ r.e0.toNat = s.sr.c0.toNat % 8 ∧
        r.e1.toNat = s.sr.c1.toNat % 8 ∧
        r.bnd = decide (s.sr.c0.toNat % 8 + s.sr.c1.toNat % 8 > 0) ∧
        r.o.toNat = s.sr.c1.toNat / 8 ∧
        r.len.toNat = r.z.toNat + r.bnd.toNat + r.o.toNat ∧
        r.sstate = if r.len.toNat > 0 then .run else .done)

/-- R145: under alignment the remainders sum to 0 or 8, a boundary byte exists exactly when both
are at least 1, and LEN is the sum of the counts over 8, exactly. -/
def Obligations.AlignedGeometry : Prop :=
  ∀ c0 c1 : Count, (c0.toNat + c1.toNat) % 8 = 0 →
    let g := geometry c0 c1
    (g.e0.toNat + g.e1.toNat = 0 ∨ g.e0.toNat + g.e1.toNat = 8) ∧
    (g.bnd = true ↔ 1 ≤ g.e0.toNat ∧ 1 ≤ g.e1.toNat) ∧
    g.len.toNat = (c0.toNat + c1.toNat) / 8

/-- R146, R147: SR.PULL, the byte at POS written out. -/
def Obligations.SrPullEmitsNextByte : Prop :=
  decode 0x23000000 = .ok .srPull ∧
  ∀ s : State,
    (s.sr.sstate = .done → exec .srPull s = .next (s.erred 8)) ∧
    (s.sr.sstate = .idle ∨ s.sr.sstate = .failed → exec .srPull s = .next (s.erred 6)) ∧
    (s.sr.sstate = .run → s.sr.pos.toNat < s.sr.len.toNat → ∃ d p : Count,
      exec .srPull s = .next (State.answered { s with sr := { s.sr with
        pos := p, sstate := if p = s.sr.len then .done else .run } } 0 d) ∧
      p.toNat = s.sr.pos.toNat + 1 ∧
      d.toNat =
        if s.sr.pos.toNat < s.sr.z.toNat then 0
        else if s.sr.bnd = true ∧ s.sr.pos = s.sr.z then 2 ^ (8 - s.sr.e0.toNat) - 1
        else 255)

/-- R148: SR.FAIL keeps POS and LEN. -/
def Obligations.SrFailAbortsStream : Prop :=
  decode 0x24000000 = .ok .srFail ∧
  ∀ s : State,
    (s.sr.sstate = .run → exec .srFail s = .next (State.erred
      { s with sr := { s.sr with sstate := .failed, serr := 2 } } 2)) ∧
    (s.sr.sstate ≠ .run → exec .srFail s = .next (s.erred 6))

/-- R149, R150: SR.RDLEN and SR.RDPOS. -/
def Obligations.SrReadsLengthAndPosition : Prop :=
  decode 0x25000000 = .ok .srRdlen ∧ decode 0x26000000 = .ok .srRdpos ∧
  ∀ s : State,
    exec .srRdpos s = .next (s.answered 0 s.sr.pos) ∧
    (s.sr.sstate = .run ∨ s.sr.sstate = .done →
      exec .srRdlen s = .next (s.answered 0 s.sr.len)) ∧
    (s.sr.sstate = .idle ∨ s.sr.sstate = .failed → exec .srRdlen s = .next (s.erred 6))

/-- R62, R140, R153: the output law. For aligned counts, the stream SR.START opens has
(cnt0 + cnt1) / 8 bytes, and read most significant bit first its bit `i` is 0 for the first cnt0
bits and 1 for the others. -/
def Obligations.OutputLaw : Prop :=
  ∀ (s t : State) (i : Nat), s.sr.sstate ≠ .run →
    (s.sr.c0.toNat + s.sr.c1.toNat) % 8 = 0 → exec .srStart s = .next t →
      t.sr.len.toNat = (s.sr.c0.toNat + s.sr.c1.toNat) / 8 ∧
      (i < s.sr.c0.toNat + s.sr.c1.toNat →
        (byteAt t.sr (BitVec.ofNat 64 (i / 8))).getLsbD (7 - i % 8) =
          decide (s.sr.c0.toNat ≤ i))

/-- R71, R152: in an open stream, `n` SR.PULL commands with `n` bytes left return the bytes at POS,
POS + 1, and so on, each once and in order, whatever was emitted before; the geometry stays. The
pending and response lists are the model's form of the port (notes/assumptions/1.md and 2.md). -/
def Obligations.PullsEmitInOrder : Prop :=
  ∀ (s : State) (n : Nat) (rest : List Input), s.sr.sstate = .run →
    s.sr.pos.toNat + n ≤ s.sr.len.toNat →
    s.port.pending = expandPseudo (.srPulln n) ++ rest →
      ∃ t, core.run n s = .next t ∧
        t.port.responses = s.port.responses ++
          (List.range n).map (fun k =>
            ⟨0, (byteAt s.sr (s.sr.pos + BitVec.ofNat 64 k)).setWidth 64⟩) ∧
        t.sr.pos.toNat = s.sr.pos.toNat + n ∧
        t.sr = { s.sr with pos := t.sr.pos, sstate := t.sr.sstate } ∧
        (t.sr.sstate = .done ↔ 0 < n ∧ s.sr.pos.toNat + n = s.sr.len.toNat) ∧
        (t.sr.sstate = .done ∨ t.sr.sstate = .run) ∧
        t.port.pending = rest ∧ t.log = s.log ∧ t.pca = s.pca ∧ t.lc = s.lc

/-- R154: the three examples of the `Trust` policy. -/
def Obligations.TrustPolicyExamples : Prop :=
  ∀ (s : State), s.sr.sstate ≠ .run → s.cfg.srUnalignedPolicy = .trust →
    ∀ p ∈ ([(3, 0, 0x1F), (0, 3, 0xFF), (5, 7, 0x07)] : List (Count × Count × Byte)),
      s.sr.c0 = p.1 → s.sr.c1 = p.2.1 →
        ∃ t, exec .srStart s = .next t ∧ t.sr.sstate = .run ∧ t.sr.len = 1 ∧
          byteAt t.sr 0 = p.2.2

/-- R156: the stream for the counts of a byte sequence is that sequence exactly when the sequence
is a run of 0x00, at most one byte 0xFF >> k with 1 <= k <= 7, and a run of 0xFF. -/
def Obligations.ReconstructionFixedPoints : Prop :=
  ∀ (x : ByteString) (r : Sr) (c0 c1 : Count), 8 * x.length ≤ 2 ^ 64 - 8 →
    c1.toNat = (x.map popcount).sum → c0.toNat = 8 * x.length - (x.map popcount).sum →
      ((List.range (geometry c0 c1).len.toNat).map
          (fun p => byteAt (r.withGeometry (geometry c0 c1)) (BitVec.ofNat 64 p)) = x ↔
        ∃ (a b : Nat) (m : ByteString),
          x = List.replicate a 0x00 ++ m ++ List.replicate b 0xFF ∧
          (m = [] ∨ ∃ k, 1 ≤ k ∧ k ≤ 7 ∧ m = [0xFF#8 >>> k]))

/-! ## LC (spec/42_locator_codec.md) -/

/-- R172: LC.CLR, in every state; EC0 and EC1 stay. -/
def Obligations.LcClrClears : Prop :=
  decode 0x30000000 = .ok .lcClr ∧
  ∀ s : State, exec .lcClr s = .next (State.answered { s with lc :=
    { lstate := .ready, lerr := 0, ec0 := s.lc.ec0, ec1 := s.lc.ec1, ibuf := [], obuf := [],
      opos := 0, dc0 := 0, dc1 := 0, dvalid := false } } 0 0)

/-- R173, R174: LC.LD0 and LC.LD1, in every state. -/
def Obligations.LcLoadsCounts : Prop :=
  decode 0x31000000 = .ok .lcLd0 ∧ decode 0x32000000 = .ok .lcLd1 ∧
  ∀ s : State,
    exec .lcLd0 s = .next (State.answered { s with lc := { s.lc with ec0 := s.port.din } } 0 0) ∧
    exec .lcLd1 s = .next (State.answered { s with lc := { s.lc with ec1 := s.port.din } } 0 0)

/-- R175: LC.PUTC appends its byte, or fails the unit when the buffer is full. -/
def Obligations.LcPutcAppends : Prop :=
  (∀ b : Byte, decode (0x33000000 ||| b.setWidth 32) = .ok (.lcPutc b)) ∧
  ∀ (s : State) (b : Byte),
    (s.lc.lstate ≠ .ready → exec (.lcPutc b) s = .next (s.erred 6)) ∧
    (s.lc.lstate = .ready → s.lc.ibuf.length = s.cfg.lcBufBytes →
      exec (.lcPutc b) s = .next (State.erred { s with lc := { s.lc with
        lstate := .failed, lerr := 9, ibuf := [], obuf := [], opos := 0, dc0 := 0, dc1 := 0,
        dvalid := false } } 9)) ∧
    (s.lc.lstate = .ready → s.lc.ibuf.length ≠ s.cfg.lcBufBytes →
      exec (.lcPutc b) s = .next (State.answered
        { s with lc := { s.lc with ibuf := s.lc.ibuf ++ [b] } } 0 0))

/-- R176, R177: LC.ENC, the length of the encoded locator, and that with the least capacity R8
allows only a filename of more than 29 bytes can be too long. -/
def Obligations.LcEncEncodes : Prop :=
  decode 0x34000000 = .ok .lcEnc ∧
  ∀ s : State,
    let e : ByteString := 0x2F :: (hex s.lc.ec0 ++ 0x2F :: (hex s.lc.ec1 ++ 0x2F :: s.lc.ibuf))
    e.length = 3 + (hex s.lc.ec0).length + (hex s.lc.ec1).length + s.lc.ibuf.length ∧
    (64 ≤ s.cfg.lcBufBytes → e.length > s.cfg.lcBufBytes → s.lc.ibuf.length > 29) ∧
    (s.lc.lstate ≠ .ready → exec .lcEnc s = .next (s.erred 6)) ∧
    (s.lc.lstate = .ready → e.length > s.cfg.lcBufBytes →
      exec .lcEnc s = .next (State.erred { s with lc := { s.lc with
        lstate := .failed, lerr := 9, ibuf := [], obuf := [], opos := 0, dc0 := 0, dc1 := 0,
        dvalid := false } } 9)) ∧
    (s.lc.lstate = .ready → e.length ≤ s.cfg.lcBufBytes →
      exec .lcEnc s = .next (State.answered { s with lc := { s.lc with
        lstate := .out, obuf := e, opos := 0, dvalid := false } } 0 0))

/-- R181: LC.DEC puts a decoded locator into DC0, DC1 and OBUF, or fails the unit. -/
def Obligations.LcDecDecodes : Prop :=
  decode 0x35000000 = .ok .lcDec ∧
  ∀ s : State,
    (s.lc.lstate ≠ .ready → exec .lcDec s = .next (s.erred 6)) ∧
    (s.lc.lstate = .ready → dec s.lc.ibuf = none →
      exec .lcDec s = .next (State.erred { s with lc := { s.lc with
        lstate := .failed, lerr := 3, ibuf := [], obuf := [], opos := 0, dc0 := 0, dc1 := 0,
        dvalid := false } } 3)) ∧
    (∀ v0 v1 f, s.lc.lstate = .ready → dec s.lc.ibuf = some (v0, v1, f) →
      f.length < s.lc.ibuf.length ∧
      exec .lcDec s = .next (State.answered { s with lc := { s.lc with
        lstate := .out, dc0 := v0, dc1 := v1, dvalid := true, obuf := f, opos := 0 } } 0 0))

/-- R182: LC.GETC returns the byte at OPOS and advances, or gives END_OF_STREAM at the end. -/
def Obligations.LcGetcReadsNextByte : Prop :=
  decode 0x36000000 = .ok .lcGetc ∧
  ∀ s : State,
    (s.lc.lstate ≠ .out → exec .lcGetc s = .next (s.erred 6)) ∧
    (s.lc.lstate = .out → s.lc.opos = s.lc.obuf.length → exec .lcGetc s = .next (s.erred 8)) ∧
    (∀ h : s.lc.opos < s.lc.obuf.length, s.lc.lstate = .out →
      exec .lcGetc s = .next (State.answered
        { s with lc := { s.lc with opos := s.lc.opos + 1 } } 0 ((s.lc.obuf[s.lc.opos]).setWidth 64)))

/-- R183, R184, R185: LC.RD0, LC.RD1 and LC.RDLEN. R185 states no result for a length that the
64-bit `dout` does not hold (notes/assumptions/18.md). -/
def Obligations.LcReadsResults : Prop :=
  decode 0x37000000 = .ok .lcRd0 ∧ decode 0x38000000 = .ok .lcRd1 ∧
  decode 0x39000000 = .ok .lcRdlen ∧
  ∀ s : State,
    (s.lc.dvalid = true → exec .lcRd0 s = .next (s.answered 0 s.lc.dc0) ∧
      exec .lcRd1 s = .next (s.answered 0 s.lc.dc1)) ∧
    (s.lc.dvalid = false → exec .lcRd0 s = .next (s.erred 6) ∧
      exec .lcRd1 s = .next (s.erred 6)) ∧
    (s.lc.lstate = .out → ∃ d, exec .lcRdlen s = .next (s.answered 0 d) ∧
      (s.lc.obuf.length < 2 ^ 64 → d.toNat = s.lc.obuf.length)) ∧
    (s.lc.lstate ≠ .out → exec .lcRdlen s = .next (s.erred 6))

/-- R14: `hex` is the shortest lower-case string with the value: its digits are lower-case hex
digits, it has no leading zero unless it is "0", and their value, most significant first, is `v`. -/
def Obligations.HexIsShortestLowerCase : Prop :=
  ∀ v : Count,
    1 ≤ (hex v).length ∧ (hex v).length ≤ 16 ∧
    (∀ c ∈ hex v, (0x30 ≤ c.toNat ∧ c.toNat ≤ 0x39) ∨ (0x61 ≤ c.toNat ∧ c.toNat ≤ 0x66)) ∧
    ((hex v).head? = some 0x30 → hex v = [0x30]) ∧
    (hex v).foldl (fun n c => 16 * n + (if c.toNat ≤ 0x39 then c.toNat - 0x30
      else c.toNat - 0x61 + 10)) 0 = v.toNat

/-- R180: `hexval` succeeds exactly on a non-empty string of hex digits of either case whose value
fits 64 bits, and gives that value. -/
def Obligations.HexvalParsesExactly : Prop :=
  ∀ (x : ByteString) (v : Count),
    hexval x = some v ↔
      x ≠ [] ∧
      (∀ c ∈ x, (0x30 ≤ c.toNat ∧ c.toNat ≤ 0x39) ∨ (0x41 ≤ c.toNat ∧ c.toNat ≤ 0x46) ∨
        (0x61 ≤ c.toNat ∧ c.toNat ≤ 0x66)) ∧
      x.foldl (fun n c => 16 * n + (if c.toNat ≤ 0x39 then c.toNat - 0x30
        else if c.toNat ≤ 0x46 then c.toNat - 0x41 + 10 else c.toNat - 0x61 + 10)) 0 = v.toNat

/-- R178, R179: decoding succeeds exactly on "/a/b/f" with no '/' in a, b or f and with a and b
hexadecimal; it then returns their values and f verbatim. -/
def Obligations.DecodeAcceptsThreeSegments : Prop :=
  ∀ (p f : ByteString) (v0 v1 : Count),
    dec p = some (v0, v1, f) ↔
      ∃ a b : ByteString, p = 0x2F :: (a ++ 0x2F :: (b ++ 0x2F :: f)) ∧
        0x2F ∉ a ∧ 0x2F ∉ b ∧ 0x2F ∉ f ∧ hexval a = some v0 ∧ hexval b = some v1

/-- R187: the round trip through the commands. For any counts and any filename whose encoding fits,
LC.ENC completes; and a READY unit that then holds that output as its input and decodes gives back
the same triple when the filename holds no '/', and rejects it when it holds one. -/
def Obligations.LocatorRoundTrip : Prop :=
  ∀ s : State, s.lc.lstate = .ready →
    3 + (hex s.lc.ec0).length + (hex s.lc.ec1).length + s.lc.ibuf.length ≤ s.cfg.lcBufBytes →
    ∃ t, exec .lcEnc s = .next t ∧ t.lc.lstate = .out ∧
      ∀ u : State, u.lc.lstate = .ready → u.lc.ibuf = t.lc.obuf →
        (0x2F ∉ s.lc.ibuf → ∃ v, exec .lcDec u = .next v ∧ v.lc.dc0 = s.lc.ec0 ∧
          v.lc.dc1 = s.lc.ec1 ∧ v.lc.obuf = s.lc.ibuf ∧ v.lc.dvalid = true ∧
          v.lc.lstate = .out) ∧
        (0x2F ∈ s.lc.ibuf → ∃ v, exec .lcDec u = .next v ∧ v.lc.lstate = .failed ∧
          v.lc.lerr = 3 ∧ v.lc.dvalid = false ∧
          v.port.responses = u.port.responses ++ [⟨3, 0⟩])

/-- R188: a path of 2 or 4 segments, or with a first segment (of one or of several) that holds a
byte that is no hex digit, is an invalid locator. -/
def Obligations.NamedRejections : Prop :=
  ∀ (s : State) (a b f g : ByteString), 0x2F ∉ a → 0x2F ∉ b → 0x2F ∉ f → 0x2F ∉ g →
    s.lc.lstate = .ready →
    (s.lc.ibuf = 0x2F :: (a ++ 0x2F :: b) ∨
      s.lc.ibuf = 0x2F :: (a ++ 0x2F :: (b ++ 0x2F :: (f ++ 0x2F :: g))) ∨
      ((∃ c ∈ a, hexdigit c = none) ∧
        (s.lc.ibuf = 0x2F :: a ∨ ∃ r, s.lc.ibuf = 0x2F :: (a ++ 0x2F :: r)))) →
      ∃ t, exec .lcDec s = .next t ∧ t.lc.lstate = .failed ∧ t.lc.lerr = 3 ∧
        t.port.responses = s.port.responses ++ [⟨3, 0⟩]

/-- R71: with output left, `n` LC.GETC commands return the next `n` bytes of OBUF, each once and in
order, and change only OPOS. The pending and response lists are the model's form of the port
(notes/assumptions/1.md and 2.md). -/
def Obligations.GetsReadOutputInOrder : Prop :=
  ∀ (s : State) (n : Nat) (rest : List Input), s.lc.lstate = .out →
    s.lc.opos + n ≤ s.lc.obuf.length →
    s.port.pending = expandPseudo (.lcGetn n) ++ rest →
      ∃ t, core.run n s = .next t ∧
        t.port.responses = s.port.responses ++
          ((s.lc.obuf.drop s.lc.opos).take n).map (fun b => ⟨0, b.setWidth 64⟩) ∧
        t.lc = { s.lc with opos := s.lc.opos + n } ∧
        t.port.pending = rest ∧ t.log = s.log ∧ t.pca = s.pca ∧ t.sr = s.sr ∧ t.cfg = s.cfg

/-! ## The assembler's output (spec/30_encoding.md) -/

/-- R91, R92: every word the assembler or a pseudo-instruction puts on the port is a legal command
word, with `din` = 0 where the command ignores it. What R91 leaves open in a line is the model's
choice (notes/assumptions/14.md). -/
def Obligations.AssembledWordsAreLegal : Prop :=
  (∀ (p : Pseudo) (x : Input), x ∈ expandPseudo p →
    ∃ w d i, x = .command w d ∧ decode w = .ok i ∧ (readsDin i = false → d = 0)) ∧
  (∀ (line : ByteString) (x : Input), assembleLine line = some x →
    ∃ w d i, x = .command w d ∧ decode w = .ok i ∧ (readsDin i = false → d = 0))
end

