-- ==== Sys2Proof/Laws/Decode.lean ====
section
/-! SUPPORT. A word is its three fields, and the opcode table read in both directions. -/

namespace Sys2Proof

/-- The fields of the word built from fields. -/
@[simp] theorem fieldsOf_wordOf (f : Fields) : fieldsOf (wordOf f) = f := by
  obtain ⟨op, rsv, imm8⟩ := f
  simp only [fieldsOf, wordOf, Fields.mk.injEq]
  refine ⟨?_, ?_, ?_⟩ <;> apply BitVec.eq_of_getLsbD_eq <;> intro i hi <;>
    simp only [BitVec.getLsbD_extractLsb', BitVec.getLsbD_append, hi, decide_true, Bool.true_and]
  · rw [if_neg (by omega), if_neg (by omega)]; congr 1; omega
  · rw [if_neg (by omega), if_pos (by omega)]; congr 1; omega
  · rw [if_pos (by omega)]; congr 1; omega

/-- A word is built from its fields. -/
@[simp] theorem wordOf_fieldsOf (w : CmdWord) : wordOf (fieldsOf w) = w := by
  simp only [fieldsOf, wordOf]
  ext i hi
  simp only [BitVec.getElem_append, BitVec.getElem_extractLsb']
  split
  · simp; rw [BitVec.getLsbD_eq_getElem hi]
  · split
    · simp; rw [BitVec.getLsbD_eq_getElem (by omega)]; congr 1; omega
    · simp; rw [BitVec.getLsbD_eq_getElem (by omega)]; congr 1; omega

/-- A command's own opcode and operand read back as the command. -/
theorem instrOf_opcode (i : Instr) : instrOf (opcode i) (byteOperand i) = some i := by
  cases i <;> rfl

/-- What the table reads has the opcode it was read from, and the operand if it takes one. -/
theorem of_instrOf (op : BitVec 8) (b : Byte) (i : Instr) (h : instrOf op b = some i) :
    opcode i = op ∧ (takesByte op = true → byteOperand i = b) ∧
      (takesByte op = false → byteOperand i = 0) := by
  have ofNat (n : Nat) (hn : op.toNat = n) : op = BitVec.ofNat 8 n := by
    rw [← hn, BitVec.ofNat_toNat, BitVec.setWidth_eq]
  unfold instrOf at h
  split at h
  case h_30 => cases h
  all_goals
    rename_i hn
    obtain rfl := ofNat _ hn
    cases h
    exact ⟨rfl, fun t => by first | rfl | exact absurd t (by decide), fun t => by
      first | rfl | exact absurd t (by decide)⟩

/-- Whether an opcode is in the table does not depend on the operand. -/
theorem instrOf_isSome (op : BitVec 8) (b : Byte) :
    (instrOf op b).isSome = (instrOf op 0).isSome := by
  unfold instrOf
  split <;> rfl

/-- The table has an opcode exactly when R85 does not list it as illegal. -/
theorem instrOf_isSome_eq (f : Fields) : (instrOf f.op f.imm8).isSome = f.opListed := by
  rw [instrOf_isSome]
  have : ∀ op : BitVec 8, (instrOf op 0).isSome = Fields.opListed ⟨op, 0, 0⟩ := by decide
  exact this f.op

/-- R90 with the three tests named as R85 to R87 name them. -/
theorem decode_eq (w : CmdWord) :
    decode w =
      if (fieldsOf w).opListed = false then .error .unlistedOp
      else if (fieldsOf w).rsvClear = false then .error .reservedBits
      else if (fieldsOf w).immAllowed = false then .error .unusedByte
      else match instrOf (fieldsOf w).op (fieldsOf w).imm8 with
        | some i => .ok i
        | none => .error .unlistedOp := by
  rw [← instrOf_isSome_eq]
  simp only [decode, decodeFields, Fields.rsvClear, Fields.immAllowed, takesByte]
  cases h : instrOf (fieldsOf w).op (fieldsOf w).imm8 with
  | none => simp
  | some i => simp

end Sys2Proof
end

