-- ==== Sys2Proof/Laws/State.lean ====
section
/-! SUPPORT. One lemma per field of State for each update of it, all true by rfl, so that no proof
unfolds a record update. -/

namespace Sys2Proof.Machine

section
variable (s : State)

@[simp] theorem State.withPca_cfg (p : Pca) : (s.withPca p).cfg = s.cfg := rfl
@[simp] theorem State.withPca_log (p : Pca) : (s.withPca p).log = s.log := rfl
@[simp] theorem State.withPca_pca (p : Pca) : (s.withPca p).pca = p := rfl
@[simp] theorem State.withPca_sr (p : Pca) : (s.withPca p).sr = s.sr := rfl
@[simp] theorem State.withPca_lc (p : Pca) : (s.withPca p).lc = s.lc := rfl
@[simp] theorem State.withPca_port (p : Pca) : (s.withPca p).port = s.port := rfl

@[simp] theorem State.withSr_cfg (r : Sr) : (s.withSr r).cfg = s.cfg := rfl
@[simp] theorem State.withSr_log (r : Sr) : (s.withSr r).log = s.log := rfl
@[simp] theorem State.withSr_pca (r : Sr) : (s.withSr r).pca = s.pca := rfl
@[simp] theorem State.withSr_sr (r : Sr) : (s.withSr r).sr = r := rfl
@[simp] theorem State.withSr_lc (r : Sr) : (s.withSr r).lc = s.lc := rfl
@[simp] theorem State.withSr_port (r : Sr) : (s.withSr r).port = s.port := rfl

@[simp] theorem State.withLc_cfg (l : Lc) : (s.withLc l).cfg = s.cfg := rfl
@[simp] theorem State.withLc_log (l : Lc) : (s.withLc l).log = s.log := rfl
@[simp] theorem State.withLc_pca (l : Lc) : (s.withLc l).pca = s.pca := rfl
@[simp] theorem State.withLc_sr (l : Lc) : (s.withLc l).sr = s.sr := rfl
@[simp] theorem State.withLc_lc (l : Lc) : (s.withLc l).lc = l := rfl
@[simp] theorem State.withLc_port (l : Lc) : (s.withLc l).port = s.port := rfl

@[simp] theorem State.answered_cfg (k : BitVec 4) (d : Count) : (s.answered k d).cfg = s.cfg := rfl
@[simp] theorem State.answered_log (k : BitVec 4) (d : Count) : (s.answered k d).log = s.log := rfl
@[simp] theorem State.answered_pca (k : BitVec 4) (d : Count) : (s.answered k d).pca = s.pca := rfl
@[simp] theorem State.answered_sr (k : BitVec 4) (d : Count) : (s.answered k d).sr = s.sr := rfl
@[simp] theorem State.answered_lc (k : BitVec 4) (d : Count) : (s.answered k d).lc = s.lc := rfl
@[simp] theorem State.answered_pending (k : BitVec 4) (d : Count) :
    (s.answered k d).port.pending = s.port.pending := rfl
@[simp] theorem State.answered_din (k : BitVec 4) (d : Count) :
    (s.answered k d).port.din = s.port.din := rfl
@[simp] theorem State.answered_responses (k : BitVec 4) (d : Count) :
    (s.answered k d).port.responses = s.port.responses ++ [⟨k, d⟩] := rfl

@[simp] theorem State.erred_cfg (k : BitVec 4) : (s.erred k).cfg = s.cfg := rfl
@[simp] theorem State.erred_gerr (k : BitVec 4) :
    (s.erred k).log.gerr = s.log.gerr ||| (1#16 <<< k) := rfl
@[simp] theorem State.erred_lasterr (k : BitVec 4) : (s.erred k).log.lasterr = k := rfl
@[simp] theorem State.erred_pca (k : BitVec 4) : (s.erred k).pca = s.pca := rfl
@[simp] theorem State.erred_sr (k : BitVec 4) : (s.erred k).sr = s.sr := rfl
@[simp] theorem State.erred_lc (k : BitVec 4) : (s.erred k).lc = s.lc := rfl
@[simp] theorem State.erred_pending (k : BitVec 4) :
    (s.erred k).port.pending = s.port.pending := rfl
@[simp] theorem State.erred_din (k : BitVec 4) : (s.erred k).port.din = s.port.din := rfl
@[simp] theorem State.erred_responses (k : BitVec 4) :
    (s.erred k).port.responses = s.port.responses ++ [⟨k, 0⟩] := rfl

@[simp] theorem State.taken_cfg (d : Count) (r : List Input) : (s.taken d r).cfg = s.cfg := rfl
@[simp] theorem State.taken_log (d : Count) (r : List Input) : (s.taken d r).log = s.log := rfl
@[simp] theorem State.taken_pca (d : Count) (r : List Input) : (s.taken d r).pca = s.pca := rfl
@[simp] theorem State.taken_sr (d : Count) (r : List Input) : (s.taken d r).sr = s.sr := rfl
@[simp] theorem State.taken_lc (d : Count) (r : List Input) : (s.taken d r).lc = s.lc := rfl
@[simp] theorem State.taken_pending (d : Count) (r : List Input) :
    (s.taken d r).port.pending = r := rfl
@[simp] theorem State.taken_din (d : Count) (r : List Input) : (s.taken d r).port.din = d := rfl
@[simp] theorem State.taken_responses (d : Count) (r : List Input) :
    (s.taken d r).port.responses = s.port.responses := rfl

@[simp] theorem State.takeReset_cfg (r : List Input) : (s.takeReset r).cfg = s.cfg := rfl
@[simp] theorem State.takeReset_log (r : List Input) : (s.takeReset r).log = ErrorLog.reset := rfl
@[simp] theorem State.takeReset_pca (r : List Input) : (s.takeReset r).pca = Pca.reset := rfl
@[simp] theorem State.takeReset_sr (r : List Input) : (s.takeReset r).sr = Sr.reset := rfl
@[simp] theorem State.takeReset_lc (r : List Input) : (s.takeReset r).lc = Lc.reset := rfl
@[simp] theorem State.takeReset_pending (r : List Input) :
    (s.takeReset r).port.pending = r := rfl
@[simp] theorem State.takeReset_responses (r : List Input) :
    (s.takeReset r).port.responses = s.port.responses := rfl

end

end Sys2Proof.Machine
end

