-- ==== Sys2Proof/Laws/Ops.lean ====
section
/-! SUPPORT. What each shared operation does, once: it answers one next state, written in the terms of
Safety.lean. -/

namespace Sys2Proof.Machine

/-- A command that completes answers OK and changes nothing else. -/
theorem complete_eq (d : Count) (s : State) : complete d s = .next (s.answered 0 d) := rfl

/-- A command that raises answers the error's code, logged. -/
theorem raise_eq (e : ErrorCode) (s : State) : raise e s = .next (s.erred e.bits) := by
  cases e <;> rfl

/-- A fatal error of LC clears the buffers and results first. -/
theorem lcFail_eq (e : ErrorCode) (s : State) :
    lcFail e s = .next ((s.withLc (s.lc.failWith e)).erred e.bits) := raise_eq e _

/-- An illegal word of any kind ends with ILLEGAL_COMMAND. -/
theorem rejectIllegal_eq (e : Illegal) (s : State) : rejectIllegal e s = .next (s.erred 7) :=
  raise_eq .illegalCommand s

/-- Taking a command off the port, in the terms of claims. -/
theorem accept_eq (s : State) (d : Count) (r : List Input) : s.accept d r = s.taken d r := rfl

/-- Every error has a code from 1 to 9 (R220). -/
theorem ErrorCode.bits_range (e : ErrorCode) : 1 ≤ e.bits.toNat ∧ e.bits.toNat ≤ 9 := by
  cases e <;> decide

/-- GERR after an error: the old bits and the error's own. -/
theorem erred_gerr_getLsbD (s : State) (e : ErrorCode) (k : Nat) :
    (s.erred e.bits).log.gerr.getLsbD k = (s.log.gerr.getLsbD k || k == e.bits.toNat) := by
  rw [State.erred_gerr, BitVec.getLsbD_or]
  congr 1
  rcases Nat.lt_or_ge k 16 with h | h
  · revert k; cases e <;> decide
  · rw [BitVec.getLsbD_of_ge _ _ h]
    have := e.bits_range.2
    symm; simp only [beq_eq_false_iff_ne, ne_eq]; omega

/-- The three kinds of step: nothing pending, a reset event, a command word (legal or not). -/
theorem step_cases (s : State) :
    (s.port.pending = [] ∧ step s = .next s) ∨
    (∃ rest, s.port.pending = .reset :: rest ∧ step s = .next (s.takeReset rest)) ∨
    (∃ w d rest i, s.port.pending = .command w d :: rest ∧ decode w = .ok i ∧
      step s = exec i (s.taken d rest)) ∨
    (∃ w d rest e, s.port.pending = .command w d :: rest ∧ decode w = .error e ∧
      step s = .next ((s.taken d rest).erred 7)) := by
  cases hp : s.port.pending with
  | nil => exact .inl ⟨rfl, by simp [step, hp]⟩
  | cons x rest =>
    cases x with
    | reset => exact .inr (.inl ⟨rest, rfl, by simp [step, hp]⟩)
    | command w d =>
      cases hd : decode w with
      | ok i => exact .inr (.inr (.inl ⟨w, d, rest, i, rfl, hd, by simp [step, hp, hd, accept_eq]⟩))
      | error e =>
        exact .inr (.inr (.inr ⟨w, d, rest, e, rfl, hd, by
          simp [step, hp, hd, accept_eq, rejectIllegal_eq]⟩))

/-- The first of several steps. -/
theorem run_succ (M : Host.Core) (n : Nat) (s t : M.State) (h : M.step s = .next t) :
    M.run (n + 1) s = M.run n t := by
  simp [Host.Core.run, h]

end Sys2Proof.Machine
end

