-- ==== Sys2Proof/Laws/Exec.lean ====
section
/-! SUPPORT. What a command can do, once: the inversion of `exec`, and each meaning in the terms of
Safety.lean. -/

namespace Sys2Proof.Machine

/-- `u` differs from `s` at most in the registers of the unit of `i`. -/
structure UnitWrite (i : Instr) (s u : State) : Prop where
  cfg : u.cfg = s.cfg
  log : u.log = s.log
  port : u.port = s.port
  pca : unitName i ≠ .pca → u.pca = s.pca
  sr : unitName i ≠ .sr → u.sr = s.sr
  lc : unitName i ≠ .lc → u.lc = s.lc

theorem UnitWrite.refl (i : Instr) (s : State) : UnitWrite i s s :=
  ⟨rfl, rfl, rfl, fun _ => rfl, fun _ => rfl, fun _ => rfl⟩

theorem UnitWrite.withPca {i : Instr} (s : State) (p : Pca) (h : unitName i = .pca) :
    UnitWrite i s (s.withPca p) :=
  ⟨rfl, rfl, rfl, fun n => absurd h n, fun _ => rfl, fun _ => rfl⟩

theorem UnitWrite.withSr {i : Instr} (s : State) (r : Sr) (h : unitName i = .sr) :
    UnitWrite i s (s.withSr r) :=
  ⟨rfl, rfl, rfl, fun _ => rfl, fun n => absurd h n, fun _ => rfl⟩

theorem UnitWrite.withLc {i : Instr} (s : State) (l : Lc) (h : unitName i = .lc) :
    UnitWrite i s (s.withLc l) :=
  ⟨rfl, rfl, rfl, fun _ => rfl, fun _ => rfl, fun n => absurd h n⟩

/-- Everything a command can do: complete after writing its own unit; fail its unit with a fatal
error; be rejected with the units unchanged; or, LC.GETC alone, stop beyond the end of OBUF. -/
inductive ExecShape (i : Instr) (s : State) : Result → Prop where
  | ok (u : State) (d : Count) (w : UnitWrite i s u) : ExecShape i s (complete d u)
  | fatal (u : State) (e : ErrorCode) (w : UnitWrite i s u)
      (n : e ∈ [.readFailure, .writeFailure, .invalidLocator, .unalignedCounts, .overflow, .bufferFull]) :
      ExecShape i s (raise e u)
  | badState : ExecShape i s (raise .badState s)
  | endOfStream (h : i = .srPull ∨ i = .lcGetc) : ExecShape i s (raise .endOfStream s)
  | pastEnd (h : i = .lcGetc) (ho : s.lc.lstate = .out) (hp : s.lc.obuf.length < s.lc.opos) :
      ExecShape i s (.fault .outputIndexPastEnd)

/-- The inversion of `exec`. -/
theorem exec_shape (i : Instr) (s : State) : ExecShape i s (exec i s) := by
  cases i <;> simp only [exec]
  case nop =>
    exact .ok s _ (.refl _ s)
  case gstat =>
    exact .ok s _ (.refl _ s)
  case pcaClr =>
    unfold execPcaClr
    split
    · exact .badState
    · exact .ok _ _ (.withPca s _ rfl)
  case pcaPush b =>
    unfold execPcaPush
    split
    · exact .badState
    · split
      · exact .fatal _ _ (.withPca s _ rfl) (by decide)
      · exact .ok _ _ (.withPca s _ rfl)
  case pcaEnd =>
    unfold execPcaEnd
    split
    · exact .badState
    · exact .ok _ _ (.withPca s _ rfl)
  case pcaFail =>
    unfold execPcaFail
    split
    · exact .badState
    · exact .fatal _ _ (.withPca s _ rfl) (by decide)
  case pcaRd0 =>
    unfold execPcaRd0
    split
    · exact .badState
    · exact .ok s _ (.refl _ s)
  case pcaRd1 =>
    unfold execPcaRd1
    split
    · exact .badState
    · exact .ok s _ (.refl _ s)
  case pcaStat =>
    exact .ok s _ (.refl _ s)
  case tblRd =>
    exact .ok s _ (.refl _ s)
  case srLd0 =>
    unfold execSrLd0
    split
    · exact .badState
    · exact .ok _ _ (.withSr s _ rfl)
  case srLd1 =>
    unfold execSrLd1
    split
    · exact .badState
    · exact .ok _ _ (.withSr s _ rfl)
  case srStart =>
    unfold execSrStart
    split
    · exact .badState
    · split
      · exact .fatal _ _ (.withSr s _ rfl) (by decide)
      · exact .ok _ _ (.withSr s _ rfl)
  case srPull =>
    unfold execSrPull
    split
    · exact .endOfStream (.inl rfl)
    · split
      · exact .badState
      · exact .ok _ _ (.withSr s _ rfl)
  case srFail =>
    unfold execSrFail
    split
    · exact .badState
    · exact .fatal _ _ (.withSr s _ rfl) (by decide)
  case srRdlen =>
    unfold execSrRdlen
    split
    · exact .badState
    · exact .ok s _ (.refl _ s)
  case srRdpos =>
    exact .ok s _ (.refl _ s)
  case srStat =>
    exact .ok s _ (.refl _ s)
  case lcClr =>
    exact .ok _ _ (.withLc s _ rfl)
  case lcLd0 =>
    exact .ok _ _ (.withLc s _ rfl)
  case lcLd1 =>
    exact .ok _ _ (.withLc s _ rfl)
  case lcPutc b =>
    unfold execLcPutc
    split
    · exact .badState
    · split
      · exact .fatal _ _ (.withLc s _ rfl) (by decide)
      · exact .ok _ _ (.withLc s _ rfl)
  case lcEnc =>
    unfold execLcEnc
    split
    · exact .badState
    · split
      · exact .fatal _ _ (.withLc s _ rfl) (by decide)
      · exact .ok _ _ (.withLc s _ rfl)
  case lcDec =>
    unfold execLcDec
    split
    · exact .badState
    · split
      · exact .fatal _ _ (.withLc s _ rfl) (by decide)
      · exact .ok _ _ (.withLc s _ rfl)
  case lcGetc =>
    unfold execLcGetc
    split
    · exact .badState
    · rename_i ho
      split
      · exact .endOfStream (.inr rfl)
      · rename_i hl
        split
        · rename_i hn
          have := List.getElem?_eq_none_iff.mp hn
          exact .pastEnd rfl (not_not.mp ho) (by omega)
        · exact .ok _ _ (.withLc s _ rfl)
  case lcRd0 =>
    unfold execLcRd0
    split
    · exact .badState
    · exact .ok s _ (.refl _ s)
  case lcRd1 =>
    unfold execLcRd1
    split
    · exact .badState
    · exact .ok s _ (.refl _ s)
  case lcRdlen =>
    unfold execLcRdlen
    split
    · exact .badState
    · exact .ok s _ (.refl _ s)
  case lcStat =>
    exact .ok s _ (.refl _ s)

/-- What a next state of `exec` looks like: the command's own unit written, and then either an OK
response or a logged error; a rejection writes nothing first. -/
theorem exec_next {i : Instr} {s t : State} (h : exec i s = .next t) :
    (∃ u d, UnitWrite i s u ∧ t = u.answered 0 d) ∨
    (∃ u e, UnitWrite i s u ∧ t = u.erred (ErrorCode.bits e) ∧
      (e = .badState ∨ e = .endOfStream → u = s) ∧ e ≠ .illegalCommand) := by
  have := exec_shape i s
  rw [h] at this
  generalize hg : Host.Outcome.next t = o at this
  cases this with
  | ok u d w => rw [complete_eq] at hg; cases hg; exact .inl ⟨u, d, w, rfl⟩
  | fatal u e w n =>
    rw [raise_eq] at hg; cases hg
    exact .inr ⟨u, e, w, rfl, by rintro (rfl | rfl) <;> simp at n, by rintro rfl; simp at n⟩
  | badState =>
    rw [raise_eq] at hg; cases hg
    exact .inr ⟨s, _, .refl _ s, rfl, fun _ => rfl, by simp⟩
  | endOfStream =>
    rw [raise_eq] at hg; cases hg
    exact .inr ⟨s, _, .refl _ s, rfl, fun _ => rfl, by simp⟩
  | pastEnd => cases hg

end Sys2Proof.Machine
end

