-- ==== Sys2Proof/Laws/Instances.lean ====
section
/-! SUPPORT. What the operations of a system do to its instances, and that they keep R8's bounds. -/

namespace Sys2Proof.Machine

/-- Issuing an input to an instance adds and removes none. -/
@[simp] theorem System.issue_length (y : System) (k : Nat) (x : Input) :
    (y.issue k x).length = y.length := by simp [System.issue]

/-- What a step of instance `k` is. -/
theorem System.stepAt_cases {y z : System} {k : Nat} (h : y.stepAt k = some z) :
    ∃ s t, y[k]? = some s ∧ step s = .next t ∧ z = y.set k t := by
  unfold System.stepAt at h
  split at h
  · cases h
  · rename_i s hs
    split at h
    · rename_i t ht; cases h; exact ⟨s, t, hs, ht, rfl⟩
    · cases h
    · cases h

/-- Issuing an input keeps a system one R8 allows. -/
theorem System.issue_wellFormed {y : System} (k : Nat) (x : Input) (h : y.WellFormed) :
    (y.issue k x).WellFormed := by
  refine ⟨by simpa using h.1, fun s hs => ?_⟩
  obtain ⟨j, hj, rfl⟩ := List.mem_iff_getElem.mp hs
  have hj' : j < y.length := by simpa using hj
  have : ((y.issue k x)[j]).cfg = (y[j]).cfg := by
    simp only [System.issue, List.getElem_modify]
    split <;> rfl
  rw [this]
  exact h.2 _ (List.getElem_mem hj')

/-- One instance or more after reset, in allowed configurations, is a system R8 allows. -/
theorem System.resetWith_wellFormed {cs : List Config} (n : cs ≠ [])
    (h : ∀ c ∈ cs, c.WellFormed) : (System.resetWith cs).WellFormed := by
  refine ⟨?_, fun s hs => ?_⟩
  · rw [System.resetWith, List.length_map]; exact List.length_pos_iff.mpr n
  · obtain ⟨c, hc, rfl⟩ := List.mem_map.mp hs
    exact h c hc

end Sys2Proof.Machine
end

