-- ==== Sys2Proof/Laws/PerInstr.lean ====
section
/-! SUPPORT. A law of every instruction as syntax: its encoding is a legal command word in the terms of R85
to R87 (WellFormed.lean), at every value of its byte operand. -/

namespace Sys2Proof.Laws.EncodedLegal

/-- The word `encode` gives for `i` passes the three checks. -/
def Statement (i : Instr) : Prop := (fieldsOf (encode i)).wellFormed = true

/-- The checks of an encoded word look only at the opcode and the byte operand. -/
theorem of_fields (i : Instr)
    (h : (Fields.mk (opcode i) 0 (byteOperand i)).wellFormed = true) : Statement i := by
  rw [Statement, encode, fieldsOf_wordOf, h]

/-- A command without a byte operand. -/
theorem plain (i : Instr) (hb : byteOperand i = 0)
    (h : (Fields.mk (opcode i) 0 0).wellFormed = true) : Statement i :=
  of_fields i (hb ▸ h)

theorem nop : Statement .nop := plain _ rfl rfl
theorem gstat : Statement .gstat := plain _ rfl rfl
theorem pcaClr : Statement .pcaClr := plain _ rfl rfl
theorem pcaPush (imm8 : Byte) : Statement (.pcaPush imm8) := of_fields _ rfl
theorem pcaEnd : Statement .pcaEnd := plain _ rfl rfl
theorem pcaFail : Statement .pcaFail := plain _ rfl rfl
theorem pcaRd0 : Statement .pcaRd0 := plain _ rfl rfl
theorem pcaRd1 : Statement .pcaRd1 := plain _ rfl rfl
theorem pcaStat : Statement .pcaStat := plain _ rfl rfl
theorem tblRd (imm8 : Byte) : Statement (.tblRd imm8) := of_fields _ rfl
theorem srLd0 : Statement .srLd0 := plain _ rfl rfl
theorem srLd1 : Statement .srLd1 := plain _ rfl rfl
theorem srStart : Statement .srStart := plain _ rfl rfl
theorem srPull : Statement .srPull := plain _ rfl rfl
theorem srFail : Statement .srFail := plain _ rfl rfl
theorem srRdlen : Statement .srRdlen := plain _ rfl rfl
theorem srRdpos : Statement .srRdpos := plain _ rfl rfl
theorem srStat : Statement .srStat := plain _ rfl rfl
theorem lcClr : Statement .lcClr := plain _ rfl rfl
theorem lcLd0 : Statement .lcLd0 := plain _ rfl rfl
theorem lcLd1 : Statement .lcLd1 := plain _ rfl rfl
theorem lcPutc (imm8 : Byte) : Statement (.lcPutc imm8) := of_fields _ rfl
theorem lcEnc : Statement .lcEnc := plain _ rfl rfl
theorem lcDec : Statement .lcDec := plain _ rfl rfl
theorem lcGetc : Statement .lcGetc := plain _ rfl rfl
theorem lcRd0 : Statement .lcRd0 := plain _ rfl rfl
theorem lcRd1 : Statement .lcRd1 := plain _ rfl rfl
theorem lcRdlen : Statement .lcRdlen := plain _ rfl rfl
theorem lcStat : Statement .lcStat := plain _ rfl rfl

end Sys2Proof.Laws.EncodedLegal
end

