-- ==== Sys2Proof/Laws/Stream.lean ====
section
/-! SUPPORT. The arithmetic of TBL and of SR's geometry as facts about numbers, and the byte at a
position case by case. -/

namespace Sys2Proof.Machine

/-- TBL's entry, widened, is the number of set bits. -/
theorem tblCount_toNat (b : Byte) : (tblCount b).toNat = popcount b := by revert b; decide

/-- A byte has at most eight set bits. -/
theorem popcount_le (b : Byte) : popcount b ≤ 8 := by revert b; decide

/-- The alignment test is on the exact sum (R144, D11). -/
theorem aligned_iff (c0 c1 : Count) : aligned c0 c1 = true ↔ (c0.toNat + c1.toNat) % 8 = 0 := by
  have h0 : c0.toNat < 2 ^ 64 := c0.isLt
  have h1 : c1.toNat < 2 ^ 64 := c1.isLt
  have e : (c0.setWidth 65 + c1.setWidth 65).toNat = c0.toNat + c1.toNat := by
    rw [BitVec.toNat_add, BitVec.toNat_setWidth, BitVec.toNat_setWidth]; omega
  unfold aligned
  rw [beq_iff_eq, ← BitVec.toNat_inj, BitVec.toNat_umod, e]
  simp

section
variable (c0 c1 : Count)

@[simp] theorem geometry_z_toNat : (geometry c0 c1).z.toNat = c0.toNat / 8 := by simp [geometry]

@[simp] theorem geometry_o_toNat : (geometry c0 c1).o.toNat = c1.toNat / 8 := by simp [geometry]

@[simp] theorem geometry_e0_toNat : (geometry c0 c1).e0.toNat = c0.toNat % 8 := by
  simp [geometry, BitVec.toNat_umod]

@[simp] theorem geometry_e1_toNat : (geometry c0 c1).e1.toNat = c1.toNat % 8 := by
  simp [geometry, BitVec.toNat_umod]

theorem geometry_bnd :
    (geometry c0 c1).bnd = decide (0 < c0.toNat % 8 + c1.toNat % 8) := by
  simp only [← geometry_e0_toNat c0 c1, ← geometry_e1_toNat c0 c1]; rfl

/-- LEN never wraps. -/
theorem geometry_len_toNat : (geometry c0 c1).len.toNat =
    c0.toNat / 8 + (geometry c0 c1).bnd.toNat + c1.toNat / 8 := by
  have h0 : c0.toNat < 2 ^ 64 := c0.isLt
  have h1 : c1.toNat < 2 ^ 64 := c1.isLt
  have bb : ∀ b : Bool, ((BitVec.ofBool b).setWidth 64).toNat = b.toNat := by decide
  have e : (geometry c0 c1).len =
      c0 / 8 + (BitVec.ofBool (geometry c0 c1).bnd).setWidth 64 + c1 / 8 := rfl
  have z : (c0 / 8).toNat = c0.toNat / 8 := by simp
  have o : (c1 / 8).toNat = c1.toNat / 8 := by simp
  have := Bool.toNat_le (geometry c0 c1).bnd
  rw [e, BitVec.toNat_add, BitVec.toNat_add, bb, z, o]
  omega

end

/-- Before position Z the stream is 0x00. -/
theorem byteAt_zero (r : Sr) (p : Count) (h : p.toNat < r.z.toNat) : byteAt r p = 0x00 := by
  rw [byteAt, if_pos h]

/-- With a boundary byte, position Z is it. -/
theorem byteAt_boundary (r : Sr) (p : Count) (hb : r.bnd = true) (h : p.toNat = r.z.toNat) :
    byteAt r p = boundaryByte r.e0 := by
  rw [byteAt, if_neg (by omega), if_pos]
  rw [hb, Bool.true_and, beq_iff_eq]
  exact BitVec.eq_of_toNat_eq h

/-- Every other position is 0xFF. -/
theorem byteAt_ones (r : Sr) (p : Count) (h : r.z.toNat ≤ p.toNat)
    (hb : r.bnd = false ∨ r.z.toNat < p.toNat) : byteAt r p = 0xFF := by
  rw [byteAt, if_neg (by omega), if_neg]
  rintro hc
  rw [Bool.and_eq_true, beq_iff_eq] at hc
  rcases hb with hb | hb
  · rw [hb] at hc; cases hc.1
  · rw [hc.2] at hb; omega

/-- Bit 7 - j of a boundary byte, read most significant first, is 0 exactly before position E0. -/
theorem boundaryByte_bit (e : BitVec 3) (j : Nat) (h : j < 8) :
    (boundaryByte e).getLsbD (7 - j) = decide (e.toNat ≤ j) := by
  revert e; interval_cases j <;> decide

end Sys2Proof.Machine
end

