-- ==== Sys2Proof/Laws/Text.lean ====
section
/-! SUPPORT. Hex digits, and splitting at '/', taken apart once. -/

namespace Sys2Proof.Machine

/-- The digit written for a value reads back as it. -/
theorem hexdigit_hexchar (d : Nat) (h : d < 16) : hexdigit (hexchar d) = some d := by
  interval_cases d <;> decide

/-- No hex digit is a '/'. -/
theorem hexchar_ne_slash (d : Nat) (h : d < 16) : hexchar d ≠ slash := by
  interval_cases d <;> decide

/-- Every byte of a written number is the digit of some value. -/
theorem mem_hexDigits (n v : Nat) (c : Byte) (h : c ∈ hexDigits n v) :
    ∃ d < 16, c = hexchar d := by
  induction n generalizing v with
  | zero => simp [hexDigits] at h
  | succ n ih =>
    rw [hexDigits] at h
    split at h
    · rename_i hv; exact ⟨v, hv, by simpa using h⟩
    · rcases List.mem_append.mp h with h | h
      · exact ih _ h
      · exact ⟨v % 16, by omega, by simpa using h⟩

/-- A text without '/' is one segment. -/
theorem splitSlash_of_notMem (x : ByteString) (h : slash ∉ x) : splitSlash x = [x] := by
  induction x with
  | nil => rfl
  | cons c cs ih =>
    rw [List.mem_cons, not_or] at h
    rw [splitSlash, if_neg (Ne.symm h.1), ih h.2]

/-- The first segment ends at the first '/'. -/
theorem splitSlash_append (a r : ByteString) (h : slash ∉ a) :
    splitSlash (a ++ slash :: r) = a :: splitSlash r := by
  induction a with
  | nil => simp [splitSlash]
  | cons c cs ih =>
    rw [List.mem_cons, not_or] at h
    rw [List.cons_append, splitSlash, if_neg (Ne.symm h.1), ih h.2]

/-- There is always a segment. -/
theorem splitSlash_ne_nil (x : ByteString) : splitSlash x ≠ [] := by
  cases x with
  | nil => simp [splitSlash]
  | cons c cs =>
    rw [splitSlash]
    split
    · simp
    · split <;> simp

/-- No segment holds a '/'. -/
theorem notMem_of_mem_splitSlash (x seg : ByteString) (h : seg ∈ splitSlash x) : slash ∉ seg := by
  induction x generalizing seg with
  | nil => simp only [splitSlash, List.mem_singleton] at h; simp [h]
  | cons c cs ih =>
    rw [splitSlash] at h
    split at h
    · rcases List.mem_cons.mp h with rfl | h
      · simp
      · exact ih seg h
    · rename_i hc
      split at h
      · rw [List.mem_singleton] at h; simpa [h] using Ne.symm hc
      · rename_i s0 ss hs
        rcases List.mem_cons.mp h with rfl | h
        · rw [List.mem_cons, not_or]
          exact ⟨Ne.symm hc, ih s0 (by simp [hs])⟩
        · exact ih seg (by simp [hs, h])

/-- The segments joined by '/' are the text. -/
theorem intercalate_splitSlash (x : ByteString) : [slash].intercalate (splitSlash x) = x := by
  induction x with
  | nil => rfl
  | cons c cs ih =>
    rw [splitSlash]
    split
    · rename_i hc
      cases hs : splitSlash cs with
      | nil => exact absurd hs (splitSlash_ne_nil cs)
      | cons s0 ss => rw [hs] at ih; rw [List.intercalate_cons_cons, ih, hc]; rfl
    · split
      · rename_i hs; exact absurd hs (splitSlash_ne_nil cs)
      · rename_i s0 ss hs
        rw [hs] at ih
        cases ss with
        | nil => simp [List.intercalate] at ih ⊢; exact ih
        | cons s1 ss => rw [List.intercalate_cons_cons] at ih ⊢; rw [← ih]; rfl

/-- Three segments: two separators and no other. -/
theorem splitSlash_eq_three (x a b f : ByteString) :
    splitSlash x = [a, b, f] ↔
      x = a ++ slash :: (b ++ slash :: f) ∧ slash ∉ a ∧ slash ∉ b ∧ slash ∉ f := by
  constructor
  · intro h
    refine ⟨?_, ?_, ?_, ?_⟩
    · have := intercalate_splitSlash x
      rw [h] at this
      rw [← this]
      simp [List.intercalate]
    all_goals exact notMem_of_mem_splitSlash x _ (by simp [h])
  · rintro ⟨rfl, ha, hb, hf⟩
    rw [splitSlash_append _ _ ha, splitSlash_append _ _ hb, splitSlash_of_notMem _ hf]

end Sys2Proof.Machine
end

