-- ==== Sys2Proof/Tests/Slice0.lean ====
section
/-! SUPPORT. Tests of the model on fixed values, each from spec/95_test_vectors.md or an example of the rule
it names, and for every obligation with hypotheses a state that meets them (test_witness_...). -/

namespace Sys2Proof.Tests

open Sys2Proof.Machine

/-! ## Helpers -/

/-- The state a step goes to. -/
def nextState : Result → Option State
  | .next t => some t
  | .fault _ => none
  | .refused _ => none

/-- The response a step gave. -/
def answer (r : Result) : Option Response := (nextState r).bind fun t => t.port.responses.getLast?

/-- Whether a result is a next state. -/
def isNext (r : Result) : Bool := (nextState r).isSome

/-- After reset, with the PCA registers given. -/
def pcaAt (p : PState) (perr : BitVec 4) (acc1 accb : Count) : State :=
  State.reset.withPca ⟨p, perr, acc1, accb⟩

/-- After reset, with counts loaded into SR. -/
def srLoaded (c0 c1 : Count) : State := State.reset.withSr { Sr.reset with c0 := c0, c1 := c1 }

/-- The stream (18, 30) of S7 at a position: the geometry is the one spec/95_test_vectors.md lists. -/
def srStream (st : SState) (pos : Count) : State :=
  State.reset.withSr
    { sstate := st, serr := 0, c0 := 18, c1 := 30, z := 2, e0 := 2, e1 := 6, bnd := true, o := 3
      len := 6, pos := pos }

/-- After reset, with the input of LC given. -/
def lcInput (f : ByteString) : State := State.reset.withLc { Lc.reset with ibuf := f }

/-- After reset, with counts and a filename to encode. -/
def lcNamed (c0 c1 : Count) (f : ByteString) : State :=
  State.reset.withLc { Lc.reset with ec0 := c0, ec1 := c1, ibuf := f }

/-- LC after a decode of "/12/1e/x.txt", at a position of its output. -/
def lcDecoded (pos : Nat) : State :=
  State.reset.withLc
    { Lc.reset with
      lstate := .out, obuf := ascii "x.txt", opos := pos, dc0 := 0x12, dc1 := 0x1E, dvalid := true }

/-- LC after a fatal error. -/
def lcFailed : State := State.reset.withLc { Lc.reset with lstate := .failed, lerr := 3 }

/-- A state on whose port one word is issued. -/
def issued (w : CmdWord) (din : Count) : State :=
  { State.reset with port := { Port.quiet with pending := [.command w din] } }

/-! ## WellFormed: an ill-formed word for each check, and a configuration R8 excludes -/

theorem test_wf_unlisted_op : (fieldsOf 0x40000000).opListed = false := by decide
theorem test_wf_reserved_bits : (fieldsOf 0x10000100).rsvClear = false := by decide
theorem test_wf_unused_byte : (fieldsOf 0x12000001).immAllowed = false := by decide
theorem test_wf_nop : (fieldsOf 0x00000000).wellFormed = true := by decide
theorem test_wf_small_buffer : ¬ Config.WellFormed ⟨.reject, 63⟩ := by decide
/-- The least capacity R8 allows; also the witness of ResetMeetsInvariant. -/
theorem test_wf_least_buffer : Config.WellFormed ⟨.reject, 64⟩ := by decide

/-- R8: a system has at least one instance, and each instance an allowed configuration. -/
theorem test_wf_no_instance : ¬ System.WellFormed [] := by decide
theorem test_wf_instance_small_buffer : ¬ System.WellFormed [State.resetWith ⟨.reject, 63⟩] := by decide

/-! ## Decode: every constructor, by its word of R84 -/

/-- One word of each family bit by bit: OP in the first eight bits, IMM8 in the last (R82). -/
theorem test_decode_by_bits :
    decode 0b00000001000000000000000000000000 = .ok .gstat ∧
    decode 0b00010001000000000000000011000011 = .ok (.pcaPush 0xC3) ∧
    decode 0b00100010000000000000000000000000 = .ok .srStart ∧
    decode 0b00110011000000000000000000101111 = .ok (.lcPutc 0x2F) := by decide

theorem test_decode_system : decode 0x00000000 = .ok .nop ∧ decode 0x01000000 = .ok .gstat := by decide

theorem test_decode_pca :
    decode 0x10000000 = .ok .pcaClr ∧ decode 0x11000070 = .ok (.pcaPush 0x70) ∧
    decode 0x12000000 = .ok .pcaEnd ∧ decode 0x13000000 = .ok .pcaFail ∧
    decode 0x14000000 = .ok .pcaRd0 ∧ decode 0x15000000 = .ok .pcaRd1 ∧
    decode 0x16000000 = .ok .pcaStat ∧ decode 0x170000FF = .ok (.tblRd 0xFF) := by decide

theorem test_decode_sr :
    decode 0x20000000 = .ok .srLd0 ∧ decode 0x21000000 = .ok .srLd1 ∧
    decode 0x22000000 = .ok .srStart ∧ decode 0x23000000 = .ok .srPull ∧
    decode 0x24000000 = .ok .srFail ∧ decode 0x25000000 = .ok .srRdlen ∧
    decode 0x26000000 = .ok .srRdpos ∧ decode 0x27000000 = .ok .srStat := by decide

theorem test_decode_lc :
    decode 0x30000000 = .ok .lcClr ∧ decode 0x31000000 = .ok .lcLd0 ∧
    decode 0x32000000 = .ok .lcLd1 ∧ decode 0x33000078 = .ok (.lcPutc 0x78) ∧
    decode 0x34000000 = .ok .lcEnc ∧ decode 0x35000000 = .ok .lcDec ∧
    decode 0x36000000 = .ok .lcGetc ∧ decode 0x37000000 = .ok .lcRd0 ∧
    decode 0x38000000 = .ok .lcRd1 ∧ decode 0x39000000 = .ok .lcRdlen ∧
    decode 0x3A000000 = .ok .lcStat := by decide

/-- V-ENC: the illegal words, at the edges of the opcode groups and of RSV. -/
theorem test_decode_illegal :
    decode 0x00000001 = .error .unusedByte ∧ decode 0x02000000 = .error .unlistedOp ∧
    decode 0x0F000000 = .error .unlistedOp ∧ decode 0x18000000 = .error .unlistedOp ∧
    decode 0x3B000000 = .error .unlistedOp ∧ decode 0xFF000000 = .error .unlistedOp ∧
    decode 0x10800000 = .error .reservedBits ∧ decode 0x1700FF00 = .error .reservedBits := by decide

/-! ## The step -/

/-- V-ENC: an illegal word answers 7, and GSTAT then reads 0x70080. -/
theorem test_step_illegal :
    answer (step (issued 0x3B000000 0)) = some ⟨7, 0⟩ ∧
    (nextState (step (issued 0x3B000000 0))).map (fun t => answer (exec .gstat t)) =
      some (some ⟨0, 0x70080⟩) := by decide

/-- V-ENC: PCA.STAT ignores `din`. -/
theorem test_step_ignores_din :
    answer (step (issued 0x16000000 0xFFFFFFFFFFFFFFFF)) = some ⟨0, 0⟩ := by decide

/-- The host's two questions on TBL.RD 0xC3 (S1). -/
theorem test_step_table_word :
    decodeTableWord 32 0x170000C3 = some (.tblRd 0xC3) ∧
    answer (step (State.reset.withFetchWord 32 0x170000C3)) = some ⟨0, 4⟩ := by decide

/-- R250: a reset event gives no response and clears the error log. -/
theorem test_step_reset :
    (nextState (step { State.reset with
        log := ⟨0x0042, 6⟩, port := ⟨[.reset], 0, []⟩ })).map (fun t => (t.log, t.port.responses)) =
      some (⟨0, 0⟩, []) := by decide

/-! ## System -/

theorem test_nop : answer (exec .nop State.reset) = some ⟨0, 0⟩ := by decide

/-- R211: after READ_FAILURE then BAD_STATE. -/
theorem test_gstat : answer (exec .gstat { State.reset with log := ⟨0x0042, 6⟩ }) =
    some ⟨0, 0x60042⟩ := by decide

/-! ## PCA and TBL -/

/-- S1. -/
theorem test_tbl_source_values :
    ([0x00, 0x08, 0x11, 0x70, 0xC3, 0xFF] : List Byte).map (fun b => answer (exec (.tblRd b) State.reset)) =
      ([0, 1, 2, 3, 4, 8] : List Count).map (fun d => some ⟨0, d⟩) := by decide

/-- V-PCA: PCA.CLR in SCAN is rejected and keeps the open scan. -/
theorem test_pcaClr_in_scan :
    answer (exec .pcaClr (pcaAt .scan 0 2 8)) = some ⟨6, 0⟩ ∧
    (nextState (exec .pcaClr (pcaAt .scan 0 2 8))).map (·.pca) = some ⟨.scan, 0, 2, 8⟩ := by decide

theorem test_pcaClr_from_failed :
    (nextState (exec .pcaClr (pcaAt .failed 1 0 0))).map (·.pca) = some ⟨.scan, 0, 0, 0⟩ := by decide

/-- R115's example. -/
theorem test_pcaPush_adds :
    (nextState (exec (.pcaPush 0x70) (pcaAt .scan 0 3 16))).map (·.pca) = some ⟨.scan, 0, 6, 24⟩ := by
  decide

/-- V-PCA, overflow: the last countable byte is counted, the next one fails. -/
theorem test_pcaPush_overflow :
    (nextState (exec (.pcaPush 0xFF) (pcaAt .scan 0 5 0xFFFFFFFFFFFFFFF0))).map (·.pca) =
      some ⟨.scan, 0, 13, 0xFFFFFFFFFFFFFFF8⟩ ∧
    answer (exec (.pcaPush 0x00) (pcaAt .scan 0 13 0xFFFFFFFFFFFFFFF8)) = some ⟨5, 0⟩ ∧
    (nextState (exec (.pcaPush 0x00) (pcaAt .scan 0 13 0xFFFFFFFFFFFFFFF8))).map (·.pca) =
      some ⟨.failed, 5, 0, 0⟩ := by decide

theorem test_pcaEnd :
    (nextState (exec .pcaEnd (pcaAt .scan 0 10 32))).map (·.pca) = some ⟨.done, 0, 10, 32⟩ := by decide

/-- V-PCA, read failure: GERR bit 1, LASTERR 1, no counts left. -/
theorem test_pcaFail :
    answer (exec .pcaFail (pcaAt .scan 0 8 8)) = some ⟨1, 0⟩ ∧
    (nextState (exec .pcaFail (pcaAt .scan 0 8 8))).map (fun t => (t.pca, t.log)) =
      some (⟨.failed, 1, 0, 0⟩, ⟨2, 1⟩) := by decide

/-- V-PCA, mixed: 0x16 and 0xA. -/
theorem test_pcaRd0 : answer (exec .pcaRd0 (pcaAt .done 0 10 32)) = some ⟨0, 0x16⟩ := by decide
theorem test_pcaRd1 : answer (exec .pcaRd1 (pcaAt .done 0 10 32)) = some ⟨0, 0xA⟩ := by decide
theorem test_pcaRd1_in_scan : answer (exec .pcaRd1 (pcaAt .scan 0 1 8)) = some ⟨6, 0⟩ := by decide

/-- R121: after PCA.FAIL, and after an overflow. -/
theorem test_pcaStat :
    answer (exec .pcaStat (pcaAt .failed 1 0 0)) = some ⟨0, 0x13⟩ ∧
    answer (exec .pcaStat (pcaAt .failed 5 0 0)) = some ⟨0, 0x53⟩ := by decide

/-! ## SR -/

/-- V-SR: LD during RUN is rejected; R142's example. -/
theorem test_srLd0 :
    (nextState (step (issued 0x20000000 0x12))).map (·.sr.c0) = some 18 ∧
    answer (exec .srLd0 (srStream .run 0)) = some ⟨6, 0⟩ := by decide

theorem test_srLd1 : (nextState (step (issued 0x21000000 0x1E))).map (·.sr.c1) = some 30 := by decide

/-- V-SR, row (0xFFFFFFFFFFFFFFFF, 1): the sum is 2^64 and LEN is 2^61. -/
theorem test_srStart_widest :
    geometry 0xFFFFFFFFFFFFFFFF 1 = ⟨2305843009213693951, 7, 1, true, 0, 2305843009213693952⟩ ∧
    (nextState (exec .srStart (srLoaded 0xFFFFFFFFFFFFFFFF 1))).map (fun t => (t.sr.len, t.sr.sstate)) =
      some (2305843009213693952, .run) := by decide

/-- V-SR, row (3, 0): rejected, and SR.STAT then reads 0x43. -/
theorem test_srStart_unaligned :
    answer (exec .srStart (srLoaded 3 0)) = some ⟨4, 0⟩ ∧
    (nextState (exec .srStart (srLoaded 3 0))).map (fun t => answer (exec .srStat t)) =
      some (some ⟨0, 0x43⟩) := by decide

/-- S7: the third byte is 0x3F, and the sixth ends the stream. -/
theorem test_srPull_boundary :
    answer (exec .srPull (srStream .run 2)) = some ⟨0, 0x3F⟩ ∧
    answer (exec .srPull (srStream .run 5)) = some ⟨0, 0xFF⟩ ∧
    (nextState (exec .srPull (srStream .run 5))).map (fun t => (t.sr.sstate, t.sr.pos)) =
      some (.done, 6) := by decide

theorem test_srPull_past_end : answer (exec .srPull (srStream .done 6)) = some ⟨8, 0⟩ := by decide

/-- V-SR, write failure mid-stream. -/
theorem test_srFail :
    answer (exec .srFail (srStream .run 2)) = some ⟨2, 0⟩ ∧
    (nextState (exec .srFail (srStream .run 2))).map (fun t => (t.sr.pos, t.sr.len, answer (exec .srStat t))) =
      some (2, 6, some ⟨0, 0x6227⟩) := by decide

theorem test_srRdlen : answer (exec .srRdlen (srStream .run 0)) = some ⟨0, 6⟩ ∧
    answer (exec .srRdlen State.reset) = some ⟨6, 0⟩ := by decide
theorem test_srRdpos : answer (exec .srRdpos (srStream .run 2)) = some ⟨0, 2⟩ := by decide
theorem test_srStat : answer (exec .srStat (srStream .run 0)) = some ⟨0, 0x6205⟩ := by decide

/-! ## LC -/

/-- R172, R39: EC0 stays. -/
theorem test_lcClr :
    (nextState (exec .lcClr (State.reset.withLc { lcFailed.lc with ec0 := 5 }))).map (·.lc) =
      some { Lc.reset with ec0 := 5 } := by decide

theorem test_lcLd0 : (nextState (step (issued 0x31000000 0x12))).map (·.lc.ec0) = some 0x12 := by decide
theorem test_lcLd1 : (nextState (step (issued 0x32000000 0x1E))).map (·.lc.ec1) = some 0x1E := by decide

theorem test_lcPutc :
    (nextState (exec (.lcPutc 0x78) (lcInput [0x2F]))).map (·.lc.ibuf) = some [0x2F, 0x78] := by decide

/-- V-LCS, 65th PUTC: LC.STAT then reads 0x92. -/
theorem test_lcPutc_full :
    (nextState (exec (.lcPutc 0x43) (lcInput (List.replicate 64 0x41)))).map
        (fun t => (t.lc.ibuf, answer (exec .lcStat t))) = some ([], some ⟨0, 0x92⟩) := by decide

/-- V-LCE, first row. -/
theorem test_lcEnc :
    (nextState (exec .lcEnc (lcNamed 0x12 0x1E (ascii "x.txt")))).map (·.lc.obuf) =
      some (ascii "/12/1e/x.txt") := by decide

/-- V-LCE: with the largest counts a filename of 29 bytes fits in 64, one of 30 does not. -/
theorem test_lcEnc_boundary :
    answer (exec .lcEnc (lcNamed 0xFFFFFFFFFFFFFFFF 0xFFFFFFFFFFFFFFFF (List.replicate 29 0x41))) =
      some ⟨0, 0⟩ ∧
    answer (exec .lcEnc (lcNamed 0xFFFFFFFFFFFFFFFF 0xFFFFFFFFFFFFFFFF (List.replicate 30 0x41))) =
      some ⟨9, 0⟩ := by decide

/-- V-LCD: accepted paths. -/
theorem test_lcDec_accepts :
    dec (ascii "/1E/1e/x") = some (0x1E, 0x1E, ascii "x") ∧
    dec (ascii "/0012/0/f") = some (0x12, 0, ascii "f") ∧
    dec (ascii "/00000000000000000000ff/0/x") = some (0xFF, 0, ascii "x") ∧
    dec (ascii "/ffffffffffffffff/FFFFFFFFFFFFFFFF/x") =
      some (0xFFFFFFFFFFFFFFFF, 0xFFFFFFFFFFFFFFFF, ascii "x") ∧
    dec (ascii "/12/1e/") = some (0x12, 0x1E, []) := by decide

/-- V-LCD: rejected paths, each for its own reason. -/
theorem test_lcDec_rejects :
    (["/10000000000000000/0/x", "/12/1e", "/12/1e/x/y", "/12/1e/x.txt/", "/zz/1e/x.txt", "/12/1g/x",
        "12/1e/x", "//1e/x", "/12//x", "///", "/", "", "/0x12/1e/x", "/+12/1e/x",
        "/ 12/1e/x"].all fun p => dec (ascii p) == none) = true := by decide

/-- R182's example, and the end of the output. -/
theorem test_lcGetc :
    answer (exec .lcGetc (lcDecoded 0)) = some ⟨0, 0x78⟩ ∧
    answer (exec .lcGetc (lcDecoded 5)) = some ⟨8, 0⟩ := by decide

theorem test_lcRd0 : answer (exec .lcRd0 (lcDecoded 0)) = some ⟨0, 0x12⟩ ∧
    answer (exec .lcRd0 State.reset) = some ⟨6, 0⟩ := by decide
theorem test_lcRd1 : answer (exec .lcRd1 (lcDecoded 0)) = some ⟨0, 0x1E⟩ := by decide
theorem test_lcRdlen : answer (exec .lcRdlen (lcDecoded 3)) = some ⟨0, 5⟩ := by decide

/-- R186's example, and after INVALID_LOCATOR. -/
theorem test_lcStat : answer (exec .lcStat (lcDecoded 0)) = some ⟨0, 0x5⟩ ∧
    answer (exec .lcStat lcFailed) = some ⟨0, 0x32⟩ := by decide

/-! ## Assembler -/

/-- P1 and P3 of part 3, and R91's three forms of a byte operand. -/
theorem test_assemble :
    assembleLine (ascii "PCA.PUSH 0xC3") = some (.command 0x110000C3 0) ∧
    assembleLine (ascii "TBL.RD 112 ; a comment") = some (.command 0x17000070 0) ∧
    assembleLine (ascii "LC.PUTC '/'") = some (.command 0x3300002F 0) ∧
    assembleLine (ascii "SR.LD0 0x12") = some (.command 0x20000000 0x12) := by decide

theorem test_assemble_rejects :
    assembleLine (ascii "PCA.PUSH 256") = none ∧ assembleLine (ascii "NOP 1") = none ∧
    assembleLine (ascii "nop") = none := by decide

/-- R92's expansion of PCA.COUNT on P1's bytes. -/
theorem test_expand_count :
    expandPseudo (.pcaCount [0x08, 0x11, 0x70, 0xC3]) =
      [.command 0x10000000 0, .command 0x11000008 0, .command 0x11000011 0, .command 0x11000070 0,
        .command 0x110000C3 0, .command 0x12000000 0] := by decide

/-- R92: the expansions that load `din`, and LC.DECODE of a one-byte path (words of V-LCS and P4). -/
theorem test_expand_with_din :
    expandPseudo (.srStream 0x12 0x1E) =
      [.command 0x20000000 0x12, .command 0x21000000 0x1E, .command 0x22000000 0] ∧
    expandPseudo (.lcEncode 0x10 8 (ascii "h")) =
      [.command 0x30000000 0, .command 0x31000000 0x10, .command 0x32000000 8,
        .command 0x33000068 0, .command 0x34000000 0] ∧
    expandPseudo (.lcDecode (ascii "/")) =
      [.command 0x30000000 0, .command 0x3300002F 0, .command 0x35000000 0] := by decide

theorem test_listing :
    listingLine .srLd0 0x12 = ascii "cmd=20000000 din=0000000000000012" ∧
    listingLine .nop 7 = ascii "cmd=00000000 din=0000000000000000" := by decide

/-! ## Witnesses: for each obligation with hypotheses, values that meet them, clause by clause -/

theorem test_witness_IllegalWordsAreRejected :
    ((issued 0x40000000 0).port.pending = [.command 0x40000000 0] ∧
      (fieldsOf 0x40000000).wellFormed = false) ∧
    (fieldsOf 0x10000100).wellFormed = false ∧ (fieldsOf 0x12000001).wellFormed = false := by decide

theorem test_witness_StepRunsDecodedCommand :
    (issued 0x3300002F 5).port.pending = [.command 0x3300002F 5] ∧
      decode 0x3300002F = .ok (.lcPutc 0x2F) := by decide

theorem test_witness_IdleCoreHoldsState : (pcaAt .scan 0 3 16).port.pending = [] := by decide

/-- A state with a reset event pending. -/
def awaitingReset : State := { pcaAt .failed 1 0 0 with port := ⟨[.reset], 0, []⟩ }

theorem test_witness_ResetEventResetsEveryRegister :
    awaitingReset.port.pending = [.reset] ∧ awaitingReset.pca ≠ Pca.reset := by decide

theorem test_witness_CommandsAfterReset :
    Config.decided.WellFormed ∧ State.reset.log = ErrorLog.reset ∧ State.reset.pca = Pca.reset ∧
      State.reset.sr = Sr.reset ∧ State.reset.lc = Lc.reset ∧ State.reset.cfg = Config.decided := by decide

/-- A state in the middle of a scan, a stream and an output, after a BAD_STATE, with a PUSH issued. -/
def busy : State :=
  { cfg := Config.decided, log := ⟨0x0040, 6⟩, pca := ⟨.scan, 0, 3, 16⟩, sr := (srStream .run 2).sr
    lc := (lcDecoded 1).lc, port := ⟨[.command 0x11000070 0], 0, []⟩ }

/-- StepIsTotal and StepKeepsInvariant. -/
theorem test_witness_invariant : busy.Inv where
  cfg := by decide
  log :=
    { bit_zero := by decide
      high_bits := fun k hk => by
        rcases Nat.lt_or_ge k 16 with h | h
        · interval_cases k <;> decide
        · exact BitVec.getLsbD_of_ge _ _ h
      lasterr_le := by decide
      lasterr_logged := by decide
      none_logged := by decide }
  pca := ⟨by decide, by decide, by decide, by decide, by decide, by decide⟩
  sr := ⟨by decide, by decide, by decide, by decide, by decide, by decide, by decide, by decide,
    by decide, by decide⟩
  lc := ⟨by decide, by decide, by decide, by decide, by decide, by decide, by decide, by decide,
    by decide⟩

theorem test_witness_step_answers : isNext (step busy) = true := by decide

theorem test_witness_ConfigurationNeverChanges : ∃ t, step busy = .next t := ⟨_, rfl⟩

/-- OneResponsePerCommand: an OK step, and one that ends in error. -/
theorem test_witness_OneResponsePerCommand :
    busy.port.pending = [.command 0x11000070 0] ∧ answer (step busy) = some ⟨0, 0⟩ ∧
    answer (step (issued 0x14000000 0)) = some ⟨6, 0⟩ := by decide

/-- GerrIsSticky: a bit that is set. -/
theorem test_witness_GerrIsSticky : busy.log.gerr.getLsbD 6 = true ∧ isNext (step busy) = true := by decide

/-- UnitsAreIndependent: a command of each unit that completes. -/
theorem test_witness_UnitsAreIndependent :
    isNext (exec .pcaEnd busy) = true ∧ isNext (exec .srPull busy) = true ∧
      isNext (exec .lcGetc busy) = true ∧ isNext (exec .gstat busy) = true := by decide

theorem test_witness_OnlyGstatReadsLog :
    ∃ t, Instr.lcGetc ≠ Instr.gstat ∧ exec .lcGetc busy = .next t := ⟨_, by decide, rfl⟩

/-- OtherUnitsAreNotRead: two states that agree on PCA and differ on SR and LC. -/
theorem test_witness_OtherUnitsAreNotRead :
    isNext (exec .pcaEnd busy) = true ∧
    ((busy.withSr Sr.reset).withLc Lc.reset).pca = busy.pca ∧
    ((busy.withSr Sr.reset).withLc Lc.reset).sr ≠ busy.sr ∧
    ((busy.withSr Sr.reset).withLc Lc.reset).port = busy.port := by decide

/-- RejectionsChangeNoUnit: one of each of the three rejections. -/
theorem test_witness_RejectionsChangeNoUnit :
    answer (step (issued 0x14000000 0)) = some ⟨6, 0⟩ ∧
    answer (step (issued 0xFF000000 0)) = some ⟨7, 0⟩ ∧
    answer (step { srStream .done 6 with port := ⟨[.command 0x23000000 0], 0, []⟩ }) =
      some ⟨8, 0⟩ := by decide

/-- FatalErrorsFailTheirUnit: each of the six fatal errors, and a FAILED unit of each kind. -/
theorem test_witness_FatalErrorsFailTheirUnit :
    answer (exec .pcaFail (pcaAt .scan 0 0 0)) = some ⟨1, 0⟩ ∧
    answer (exec .srFail (srStream .run 0)) = some ⟨2, 0⟩ ∧
    answer (exec .lcDec State.reset) = some ⟨3, 0⟩ ∧
    answer (exec .srStart (srLoaded 0 3)) = some ⟨4, 0⟩ ∧
    answer (exec (.pcaPush 1) (pcaAt .scan 0 0 0xFFFFFFFFFFFFFFF8)) = some ⟨5, 0⟩ ∧
    answer (exec (.lcPutc 1) (lcInput (List.replicate 64 0))) = some ⟨9, 0⟩ ∧
    (pcaAt .failed 1 0 0).pca.pstate = .failed ∧ (srStream .failed 2).sr.sstate = .failed ∧
    lcFailed.lc.lstate = .failed := by decide

/-- FirstFatalCauseIsKept: an error in each FAILED unit, and SR.START's own. -/
theorem test_witness_FirstFatalCauseIsKept :
    answer (exec (.pcaPush 1) (pcaAt .failed 1 0 0)) = some ⟨6, 0⟩ ∧
    answer (exec .srPull (srStream .failed 2)) = some ⟨6, 0⟩ ∧
    answer (exec .lcDec lcFailed) = some ⟨6, 0⟩ ∧
    answer (exec .srStart (State.reset.withSr
      { Sr.reset with sstate := .failed, serr := 2, c0 := 3 })) = some ⟨4, 0⟩ := by decide

/-- ReadsChangeNothing: a read that completes and one that is rejected, TBL.RD among the reads. -/
theorem test_witness_ReadsChangeNothing :
    .lcRd0 ∈ idempotentReads ∧ answer (exec .lcRd0 busy) = some ⟨0, 0x12⟩ ∧
    .pcaRd0 ∈ idempotentReads ∧ answer (exec .pcaRd0 busy) = some ⟨6, 0⟩ ∧
    isNext (exec (.tblRd 0xFF) busy) = true := by decide

/-- DinIsReadOnlyByLoads: a command that reads no `din`, and one that ends in error. -/
theorem test_witness_DinIsReadOnlyByLoads :
    readsDin .srPull = false ∧ isNext (exec .srPull busy) = true ∧ readsDin .srLd0 = true ∧
    answer (exec .srLd0 busy) = some ⟨6, 0⟩ := by decide

/-- RestStatesAreNotReentered: a step that stays at rest, and LC.CLR out of FAILED. -/
theorem test_witness_RestStatesAreNotReentered :
    (nextState (exec .nop State.reset)).map (fun t => (t.pca.pstate, t.sr.sstate, t.lc.lstate)) =
      some (.idle, .idle, .ready) ∧
    (nextState (exec .lcClr lcFailed)).map (·.lc.lstate) = some .ready := by decide

/-- InstancesShareNothing: two instances, and the least system R8 allows. -/
theorem test_witness_InstancesShareNothing :
    (System.stepAt [State.reset, busy] 1).isSome = true ∧ System.WellFormed [State.reset, busy] ∧
    (System.stepAt [busy] 0).isSome = true ∧ System.WellFormed [busy] := by decide

theorem test_witness_PcaClrOpensScan :
    (pcaAt .scan 0 2 8).pca.pstate = .scan ∧ (pcaAt .failed 1 0 0).pca.pstate ≠ .scan := by decide

/-- PcaPushAccumulates: outside SCAN, the least overflow and the last byte that counts. -/
theorem test_witness_PcaPushAccumulates :
    State.reset.pca.pstate ≠ .scan ∧
    (pcaAt .scan 0 0 (BitVec.ofNat 64 (2 ^ 64 - 8))).pca.accb.toNat > 2 ^ 64 - 9 ∧
    (pcaAt .scan 0 0 (BitVec.ofNat 64 (2 ^ 64 - 9))).pca.accb.toNat ≤ 2 ^ 64 - 9 ∧
    (pcaAt .scan 0 16 16).pca.acc1.toNat ≤ (pcaAt .scan 0 16 16).pca.accb.toNat := by decide

theorem test_witness_PcaEndAndFailCloseScan :
    (pcaAt .scan 0 0 0).pca.pstate = .scan ∧ (pcaAt .done 0 0 0).pca.pstate ≠ .scan := by decide

theorem test_witness_PcaReadsCounts :
    (pcaAt .done 0 32 32).pca.pstate = .done ∧
    (pcaAt .done 0 32 32).pca.acc1.toNat ≤ (pcaAt .done 0 32 32).pca.accb.toNat ∧
    (pcaAt .scan 0 0 0).pca.pstate ≠ .done := by decide

/-- A state on whose port inputs are issued. -/
def withPending (s : State) (l : List Input) : State := { s with port := { s.port with pending := l } }

/-- CountingLaw: a scan of one byte, and the empty scan. -/
theorem test_witness_CountingLaw :
    (withPending State.reset (expandPseudo (.pcaCount [0xC3]) ++ [])).pca.pstate ≠ .scan ∧
    8 * ([0xC3] : ByteString).length ≤ 2 ^ 64 - 8 ∧ 8 * ([] : ByteString).length ≤ 2 ^ 64 - 8 := by decide

theorem test_witness_SrLoadsCounts :
    (srStream .run 0).sr.sstate = .run ∧ (srStream .done 6).sr.sstate ≠ .run := by decide

/-- SrStartFixesGeometry: each clause, with both policies. -/
theorem test_witness_SrStartFixesGeometry :
    (srStream .run 0).sr.sstate = .run ∧
    ((srLoaded 3 0).sr.sstate ≠ .run ∧
      ((srLoaded 3 0).sr.c0.toNat + (srLoaded 3 0).sr.c1.toNat) % 8 ≠ 0 ∧
      (srLoaded 3 0).cfg.srUnalignedPolicy = .reject) ∧
    ((srLoaded 0xFFFFFFFFFFFFFFFF 1).sr.c0.toNat + (srLoaded 0xFFFFFFFFFFFFFFFF 1).sr.c1.toNat) % 8 = 0 ∧
    (State.resetWith ⟨.trust, 64⟩).cfg.srUnalignedPolicy = .trust := by decide

/-- AlignedGeometry: remainders that sum to 0 and to 8. -/
theorem test_witness_AlignedGeometry :
    ((8 : Count).toNat + (8 : Count).toNat) % 8 = 0 ∧ ((18 : Count).toNat + (30 : Count).toNat) % 8 = 0 := by
  decide

/-- SrPullEmitsNextByte: each state, and a zero byte, the boundary byte and a one byte. -/
theorem test_witness_SrPullEmitsNextByte :
    (srStream .done 6).sr.sstate = .done ∧ State.reset.sr.sstate = .idle ∧
    (srStream .failed 2).sr.sstate = .failed ∧ (srStream .run 0).sr.sstate = .run ∧
    (srStream .run 1).sr.pos.toNat < (srStream .run 1).sr.z.toNat ∧
    (srStream .run 2).sr.pos = (srStream .run 2).sr.z ∧ (srStream .run 2).sr.bnd = true ∧
    (srStream .run 5).sr.pos.toNat < (srStream .run 5).sr.len.toNat := by decide

theorem test_witness_SrFailAbortsStream :
    (srStream .run 2).sr.sstate = .run ∧ (srStream .done 6).sr.sstate ≠ .run := by decide

theorem test_witness_SrReadsLengthAndPosition :
    (srStream .run 2).sr.sstate = .run ∧ (srStream .done 6).sr.sstate = .done ∧
    State.reset.sr.sstate = .idle ∧ (srStream .failed 2).sr.sstate = .failed := by decide

/-- OutputLaw: the last bit of the stream (18, 30). -/
theorem test_witness_OutputLaw :
    (srLoaded 18 30).sr.sstate ≠ .run ∧
    ((srLoaded 18 30).sr.c0.toNat + (srLoaded 18 30).sr.c1.toNat) % 8 = 0 ∧
    isNext (exec .srStart (srLoaded 18 30)) = true ∧
    47 < (srLoaded 18 30).sr.c0.toNat + (srLoaded 18 30).sr.c1.toNat := by decide

/-- PullsEmitInOrder: the last two bytes, and no pull at all. -/
theorem test_witness_PullsEmitInOrder :
    (withPending (srStream .run 4) (expandPseudo (.srPulln 2) ++ [])).port.pending =
      expandPseudo (.srPulln 2) ++ [] ∧
    (srStream .run 4).sr.sstate = .run ∧
    (srStream .run 4).sr.pos.toNat + 2 ≤ (srStream .run 4).sr.len.toNat ∧
    (srStream .run 4).sr.pos.toNat + 0 ≤ (srStream .run 4).sr.len.toNat := by decide

/-- After reset under the policy `Trust`, with counts loaded into SR. -/
def trusting (c0 c1 : Count) : State := { srLoaded c0 c1 with cfg := ⟨.trust, 64⟩ }

/-- TrustPolicyExamples: the three pairs of counts, loaded under `Trust`. -/
theorem test_witness_TrustPolicyExamples :
    (trusting 3 0).sr.sstate ≠ .run ∧ (trusting 3 0).cfg.srUnalignedPolicy = .trust ∧
    ((trusting 3 0).sr.c0 = 3 ∧ (trusting 3 0).sr.c1 = 0) ∧
    ((trusting 0 3).sr.c0 = 0 ∧ (trusting 0 3).sr.c1 = 3) ∧
    (trusting 5 7).sr.c0 = 5 ∧ (trusting 5 7).sr.c1 = 7 := by decide

/-- ReconstructionFixedPoints: a fixed point and a byte that is none, with their counts. -/
theorem test_witness_ReconstructionFixedPoints :
    (8 * ([0x3F] : ByteString).length ≤ 2 ^ 64 - 8 ∧
      (6 : Count).toNat = (([0x3F] : ByteString).map popcount).sum ∧
      (2 : Count).toNat = 8 * ([0x3F] : ByteString).length - (([0x3F] : ByteString).map popcount).sum) ∧
    ((1 : Count).toNat = (([0x80] : ByteString).map popcount).sum ∧
      (7 : Count).toNat = 8 * ([0x80] : ByteString).length - (([0x80] : ByteString).map popcount).sum) := by
  decide

theorem test_witness_LcPutcAppends :
    lcFailed.lc.lstate ≠ .ready ∧ (lcInput []).lc.lstate = .ready ∧
    (lcInput (List.replicate 64 0x41)).lc.ibuf.length = (lcInput []).cfg.lcBufBytes ∧
    (lcInput (List.replicate 63 0x41)).lc.ibuf.length ≠ (lcInput []).cfg.lcBufBytes := by decide

/-- LcEncEncodes: the lengths 64 and 65 of V-LCE. -/
theorem test_witness_LcEncEncodes :
    lcFailed.lc.lstate ≠ .ready ∧ (lcNamed 1 1 []).lc.lstate = .ready ∧ (64 ≤ State.reset.cfg.lcBufBytes) ∧
    3 + (hex 1).length + (hex 1).length + (List.replicate 59 (0x42 : Byte)).length ≤
      State.reset.cfg.lcBufBytes ∧
    3 + (hex 1).length + (hex 1).length + (List.replicate 60 (0x42 : Byte)).length >
      State.reset.cfg.lcBufBytes := by decide

theorem test_witness_LcDecDecodes :
    lcFailed.lc.lstate ≠ .ready ∧ (lcInput []).lc.lstate = .ready ∧ dec (lcInput []).lc.ibuf = none ∧
    dec (lcInput (ascii "/12/1e/x.txt")).lc.ibuf = some (0x12, 0x1E, ascii "x.txt") := by decide

theorem test_witness_LcGetcReadsNextByte :
    State.reset.lc.lstate ≠ .out ∧ (lcDecoded 5).lc.lstate = .out ∧
    (lcDecoded 5).lc.opos = (lcDecoded 5).lc.obuf.length ∧
    (lcDecoded 4).lc.opos < (lcDecoded 4).lc.obuf.length := by decide

theorem test_witness_LcReadsResults :
    (lcDecoded 0).lc.dvalid = true ∧ State.reset.lc.dvalid = false ∧ (lcDecoded 0).lc.lstate = .out ∧
    (lcDecoded 0).lc.obuf.length < 2 ^ 64 ∧ State.reset.lc.lstate ≠ .out := by decide

/-- HexIsShortestLowerCase: zero, the one value whose text begins with a "0". -/
theorem test_witness_HexIsShortestLowerCase : (hex 0).head? = some 0x30 := by decide

/-- LocatorRoundTrip: a filename without and one with a '/', and the READY unit that holds the output. -/
theorem test_witness_LocatorRoundTrip :
    ((lcNamed 0x12 0x1E (ascii "x.txt")).lc.lstate = .ready ∧ 0x2F ∉ ascii "x.txt" ∧
      3 + (hex 0x12).length + (hex 0x1E).length + (ascii "x.txt").length ≤ State.reset.cfg.lcBufBytes) ∧
    0x2F ∈ ascii "a/b" ∧
    (nextState (exec .lcEnc (lcNamed 0x12 0x1E (ascii "x.txt")))).map (·.lc.obuf) =
      some (lcInput (ascii "/12/1e/x.txt")).lc.ibuf ∧
    (lcInput (ascii "/12/1e/x.txt")).lc.lstate = .ready := by decide

/-- NamedRejections: two segments, four, and a first segment that is not hex, with the segments. -/
theorem test_witness_NamedRejections :
    (lcInput (ascii "/12/1e")).lc.ibuf = 0x2F :: (ascii "12" ++ 0x2F :: ascii "1e") ∧
    (lcInput (ascii "/12/1e/x/y")).lc.ibuf =
      0x2F :: (ascii "12" ++ 0x2F :: (ascii "1e" ++ 0x2F :: (ascii "x" ++ 0x2F :: ascii "y"))) ∧
    (∃ c ∈ ascii "zz", hexdigit c = none) ∧
    (lcInput (ascii "/zz/1e/x.txt")).lc.ibuf = 0x2F :: (ascii "zz" ++ 0x2F :: ascii "1e/x.txt") ∧
    0x2F ∉ ascii "12" ∧ 0x2F ∉ ascii "1e" ∧ 0x2F ∉ ascii "x" ∧ 0x2F ∉ ascii "y" ∧
    0x2F ∉ ascii "zz" := by decide

/-- GetsReadOutputInOrder: all of "x.txt". -/
theorem test_witness_GetsReadOutputInOrder :
    (withPending (lcDecoded 0) (expandPseudo (.lcGetn 5) ++ [])).lc.lstate = .out ∧
    (lcDecoded 0).lc.opos + 5 ≤ (lcDecoded 0).lc.obuf.length := by decide

/-- AssembledWordsAreLegal: an expansion with an input in it, and a line that assembles. -/
theorem test_witness_AssembledWordsAreLegal :
    issue .lcEnc 0 ∈ expandPseudo (.lcEncode 1 2 []) ∧
    assembleLine (ascii "NOP") = some (.command 0 0) := by decide

end Sys2Proof.Tests
end

/-! The machine's invariant, unit by unit: each write of a command keeps its own unit's invariant. -/

namespace Sys2Proof.Machine

/-! ### The error log -/

/-- An error sets its own bit, 1 to 9, and is then LASTERR. -/
theorem erred_log_inv {s : State} (h : s.log.Inv) (e : ErrorCode) : (s.erred e.bits).log.Inv := by
  have hr := e.bits_range
  have hbit := erred_gerr_getLsbD s e
  refine ⟨?_, fun k hk => ?_, hr.2, fun _ => ?_, fun h0 => ?_⟩
  · rw [hbit, h.bit_zero, Bool.false_or, beq_eq_false_iff_ne]; omega
  · rw [hbit, h.high_bits k hk, Bool.false_or, beq_eq_false_iff_ne]; omega
  · rw [hbit, State.erred_lasterr, beq_self_eq_true, Bool.or_true]
  · rw [State.erred_lasterr] at h0; rw [h0] at hr; simp at hr

/-! ### PCA -/

theorem Pca.inv_scanOpened : Pca.Inv ⟨.scan, 0, 0, 0⟩ := by
  constructor <;> simp

theorem Pca.inv_failWith {e : ErrorCode} (he : e = .readFailure ∨ e = .overflow) :
    (Pca.failWith e).Inv := by
  rcases he with rfl | rfl <;> constructor <;> simp [Pca.failWith, ErrorCode.bits]

/-- ACCB stays a multiple of 8 below 2^64, and ACC1 grows by at most 8. -/
theorem Pca.Inv.push {p : Pca} (h : p.Inv) (hs : p.pstate = .scan)
    (ho : ¬ p.accb.toNat > 2 ^ 64 - 1 - 8) (b : Byte) :
    Pca.Inv { p with acc1 := p.acc1 + tblCount b, accb := p.accb + 8 } := by
  have hmod := h.accb_mod
  have hle := h.acc1_le
  have hpop := popcount_le b
  have h1 : (p.acc1 + tblCount b).toNat = p.acc1.toNat + popcount b := by
    rw [BitVec.toNat_add, tblCount_toNat]; omega
  have hb : (p.accb + 8).toNat = p.accb.toNat + 8 := by bv_omega
  exact
    { accb_mod := by rw [hb]; omega
      acc1_le := by rw [h1, hb]; omega
      accb_le := by rw [hb]; omega
      at_rest := by simp [hs]
      perr_failed := by simp [hs]
      perr_zero := fun _ => h.perr_zero (by simp [hs]) }

theorem Pca.Inv.done {p : Pca} (h : p.Inv) (hs : p.pstate = .scan) :
    Pca.Inv { p with pstate := .done } :=
  { h with
    at_rest := by simp
    perr_failed := by simp
    perr_zero := fun _ => h.perr_zero (by simp [hs]) }

/-! ### SR -/

/-- The counts that SR.LD0 and SR.LD1 load stand in no clause. -/
theorem Sr.Inv.withCounts {r : Sr} (h : r.Inv) (c0 c1 : Count) :
    Sr.Inv { r with c0 := c0, c1 := c1 } :=
  { h with pos_le := h.pos_le }

theorem Sr.inv_rejectCounts (r : Sr) : r.rejectCounts.Inv := by
  constructor <;> simp [Sr.rejectCounts, Sr.withGeometry, Geometry.cleared, ErrorCode.bits]

/-- A stream that SR.START opens stands at position 0, and is DONE exactly when it is empty. -/
theorem Sr.inv_started (r : Sr) (c0 c1 : Count) : (r.started (geometry c0 c1)).Inv := by
  have h0 : c0.toNat < 2 ^ 64 := c0.isLt
  have h1 : c1.toNat < 2 ^ 64 := c1.isLt
  refine
    { pos_le := Nat.zero_le _
      pos_run := fun hr => ?_
      pos_done := fun hd => ?_
      no_stream := fun hn => ?_
      serr_failed := fun hf => ?_
      serr_zero := fun _ => rfl
      z_lt := ?_
      o_lt := ?_
      bnd_eq := rfl
      len_eq := ?_ }
  all_goals simp only [Sr.started, Sr.withGeometry] at *
  · split at hr
    · assumption
    · cases hr
  · split at hd
    · cases hd
    · bv_omega
  · rcases hn with hn | hn
    · split at hn <;> cases hn
    · cases hn
  · split at hf <;> cases hf
  · rw [geometry_z_toNat]; omega
  · rw [geometry_o_toNat]; omega
  · rw [geometry_len_toNat, geometry_z_toNat, geometry_o_toNat]

/-- POS advances within LEN, and the stream is DONE exactly when it gets there. -/
theorem Sr.Inv.advance {r : Sr} (h : r.Inv) (hs : r.sstate = .run) : r.advance.Inv := by
  have hlt := h.pos_run hs
  have hz : r.serr = 0 := h.serr_zero (by simp [hs])
  have hp : (r.pos + 1).toNat = r.pos.toNat + 1 := by bv_omega
  refine { h with
    pos_le := ?_, pos_run := fun hr => ?_, pos_done := fun hd => ?_, no_stream := fun hn => ?_
    serr_failed := fun hf => ?_, serr_zero := fun _ => hz }
  all_goals simp only [Sr.advance] at *
  · omega
  · split at hr
    · cases hr
    · rename_i hne
      have : (r.pos + 1).toNat ≠ r.len.toNat := fun he => hne (BitVec.eq_of_toNat_eq he)
      omega
  · split at hd
    · assumption
    · rw [hs] at hd; cases hd
  · rw [hz, hs] at hn
    split at hn <;> simp at hn
  · rw [hs] at hf
    split at hf <;> cases hf

theorem Sr.Inv.writeFailed {r : Sr} (h : r.Inv) :
    Sr.Inv { r with serr := ErrorCode.bits .writeFailure, sstate := .failed } :=
  { h with
    pos_run := by simp
    pos_done := by simp
    no_stream := by simp [ErrorCode.bits]
    serr_failed := fun _ => .inl rfl
    serr_zero := by simp }

/-! ### LC -/

/-- The filename that a path decodes to is shorter than the path. -/
theorem dec_length_lt {p f : ByteString} {v0 v1 : Count} (h : dec p = some (v0, v1, f)) :
    f.length < p.length := by
  unfold dec at h
  split at h
  · rename_i s0 s1 f' hseg
    split at h
    · cases h
      cases p with
      | nil => cases hseg
      | cons c r =>
        rw [segments] at hseg
        split at hseg
        · obtain ⟨rfl, -⟩ := (splitSlash_eq_three _ _ _ _).mp (Option.some.inj hseg)
          simp only [List.length_cons, List.length_append]
          omega
        · cases hseg
    · cases h
  · cases h

section
variable {cap : Nat}

/-- The counts that LC.LD0 and LC.LD1 load stand in no clause. -/
theorem Lc.Inv.withCounts {l : Lc} (h : l.Inv cap) (c0 c1 : Count) :
    Lc.Inv cap { l with ec0 := c0, ec1 := c1 } :=
  { h with ibuf_le := h.ibuf_le }

theorem Lc.inv_cleared (l : Lc) : l.cleared.Inv cap := by
  constructor <;> simp [Lc.cleared]

theorem Lc.inv_failWith (l : Lc) {e : ErrorCode} (he : e = .invalidLocator ∨ e = .bufferFull) :
    (l.failWith e).Inv cap := by
  rcases he with rfl | rfl <;> constructor <;> simp [Lc.failWith, ErrorCode.bits]

theorem Lc.Inv.putc {l : Lc} (h : l.Inv cap) (hs : l.lstate = .ready) (hl : l.ibuf.length ≠ cap)
    (b : Byte) : Lc.Inv cap { l with ibuf := l.ibuf ++ [b] } :=
  { h with
    ibuf_le := by
      have := h.ibuf_le
      rw [List.length_append, List.length_singleton]
      omega
    failed_empty := by simp [hs] }

/-- A READY unit holds no decoded counts. -/
theorem Lc.Inv.counts_zero {l : Lc} (h : l.Inv cap) (hs : l.lstate = .ready) :
    l.dc0 = 0 ∧ l.dc1 = 0 :=
  h.not_valid (Bool.eq_false_iff.mpr fun hv => by have := h.dvalid_out hv; simp [hs] at this)

theorem Lc.Inv.encoded {l : Lc} (h : l.Inv cap) (hs : l.lstate = .ready) {x : ByteString}
    (hx : x.length ≤ cap) :
    Lc.Inv cap { l with obuf := x, opos := 0, dvalid := false, lstate := .out } :=
  { h with
    obuf_le := hx
    opos_le := Nat.zero_le _
    lerr_failed := by simp
    lerr_zero := fun _ => h.lerr_zero (by simp [hs])
    dvalid_out := by simp
    not_valid := fun _ => h.counts_zero hs
    no_output := by simp
    failed_empty := by simp }

theorem Lc.Inv.decoded {l : Lc} (h : l.Inv cap) (hs : l.lstate = .ready) {f : ByteString}
    (hf : f.length ≤ cap) (v0 v1 : Count) :
    Lc.Inv cap
      { l with dc0 := v0, dc1 := v1, dvalid := true, obuf := f, opos := 0, lstate := .out } :=
  { h with
    obuf_le := hf
    opos_le := Nat.zero_le _
    lerr_failed := by simp
    lerr_zero := fun _ => h.lerr_zero (by simp [hs])
    dvalid_out := by simp
    not_valid := by simp
    no_output := by simp
    failed_empty := by simp }

theorem Lc.Inv.getc {l : Lc} (h : l.Inv cap) (hs : l.lstate = .out)
    (hl : l.opos < l.obuf.length) : Lc.Inv cap { l with opos := l.opos + 1 } :=
  { h with
    opos_le := hl
    no_output := by simp [hs] }

end

end Sys2Proof.Machine

/-! Every step keeps the machine's invariant: the two ways a command ends keep it, so each command
only has to show that the registers it writes meet their unit's invariant. -/

namespace Sys2Proof.Machine

theorem State.inv_resetWith {c : Config} (hc : c.WellFormed) : (State.resetWith c).Inv where
  cfg := hc
  log := by constructor <;> simp [State.resetWith, ErrorLog.reset]
  pca := by constructor <;> simp [State.resetWith, Pca.reset]
  sr := by constructor <;> simp [State.resetWith, Sr.reset]
  lc := by constructor <;> simp [State.resetWith, Lc.reset]

section
variable {s : State} (h : s.Inv)
include h

theorem State.Inv.withPca {p : Pca} (hp : p.Inv) : (s.withPca p).Inv :=
  ⟨h.cfg, h.log, hp, h.sr, h.lc⟩

theorem State.Inv.withSr {r : Sr} (hr : r.Inv) : (s.withSr r).Inv :=
  ⟨h.cfg, h.log, h.pca, hr, h.lc⟩

theorem State.Inv.withLc {l : Lc} (hl : l.Inv s.cfg.lcBufBytes) : (s.withLc l).Inv :=
  ⟨h.cfg, h.log, h.pca, h.sr, hl⟩

theorem State.Inv.taken (d : Count) (rest : List Input) : (s.taken d rest).Inv :=
  ⟨h.cfg, h.log, h.pca, h.sr, h.lc⟩

theorem State.Inv.takeReset (rest : List Input) : (s.takeReset rest).Inv := by
  obtain ⟨-, hlog, hpca, hsr, hlc⟩ := State.inv_resetWith h.cfg
  exact ⟨h.cfg, hlog, hpca, hsr, hlc⟩

theorem State.Inv.answered (k : BitVec 4) (d : Count) : (s.answered k d).Inv :=
  ⟨h.cfg, h.log, h.pca, h.sr, h.lc⟩

theorem State.Inv.erred (e : ErrorCode) : (s.erred e.bits).Inv :=
  ⟨h.cfg, erred_log_inv h.log e, h.pca, h.sr, h.lc⟩

end

/-- If `r` answers a next state, that state meets the invariant. -/
def NextMeetsInv (r : Result) : Prop := ∀ t, r = .next t → t.Inv

theorem nextMeetsInv_next {t : State} (h : t.Inv) : NextMeetsInv (.next t) := by
  rintro _ ⟨⟩
  exact h

section
variable {s : State} (h : s.Inv)
include h

theorem nextMeetsInv_complete (d : Count) : NextMeetsInv (complete d s) :=
  nextMeetsInv_next (h.answered 0 d)

theorem nextMeetsInv_raise (e : ErrorCode) : NextMeetsInv (raise e s) := by
  rw [raise_eq]
  exact nextMeetsInv_next (h.erred e)

theorem nextMeetsInv_lcFail {e : ErrorCode} (he : e = .invalidLocator ∨ e = .bufferFull) :
    NextMeetsInv (lcFail e s) :=
  nextMeetsInv_raise (h.withLc (s.lc.inv_failWith he)) e

/-- A command that is rejected or completes without writing a unit. -/
theorem nextMeetsInv_read (c : Prop) [Decidable c] (d : Count) :
    NextMeetsInv (if c then raise .badState s else complete d s) := by
  split
  · exact nextMeetsInv_raise h _
  · exact nextMeetsInv_complete h d

/-! ### The commands that write PCA -/

theorem execPcaClr_meetsInv : NextMeetsInv (execPcaClr s) := by
  unfold execPcaClr
  split
  · exact nextMeetsInv_raise h _
  · exact nextMeetsInv_complete (h.withPca Pca.inv_scanOpened) _

theorem execPcaPush_meetsInv (b : Byte) : NextMeetsInv (execPcaPush b s) := by
  unfold execPcaPush
  split
  · exact nextMeetsInv_raise h _
  · rename_i hs
    split
    · exact nextMeetsInv_raise (h.withPca (Pca.inv_failWith (.inr rfl))) _
    · rename_i ho
      exact nextMeetsInv_complete (h.withPca (h.pca.push (not_not.mp hs) ho b)) _

theorem execPcaEnd_meetsInv : NextMeetsInv (execPcaEnd s) := by
  unfold execPcaEnd
  split
  · exact nextMeetsInv_raise h _
  · exact nextMeetsInv_complete (h.withPca (h.pca.done (not_not.mp ‹_›))) _

theorem execPcaFail_meetsInv : NextMeetsInv (execPcaFail s) := by
  unfold execPcaFail
  split
  · exact nextMeetsInv_raise h _
  · exact nextMeetsInv_raise (h.withPca (Pca.inv_failWith (.inl rfl))) _

/-! ### The commands that write SR -/

theorem execSrLd0_meetsInv : NextMeetsInv (execSrLd0 s) := by
  unfold execSrLd0
  split
  · exact nextMeetsInv_raise h _
  · exact nextMeetsInv_complete (h.withSr (h.sr.withCounts _ _)) _

theorem execSrLd1_meetsInv : NextMeetsInv (execSrLd1 s) := by
  unfold execSrLd1
  split
  · exact nextMeetsInv_raise h _
  · exact nextMeetsInv_complete (h.withSr (h.sr.withCounts _ _)) _

theorem execSrStart_meetsInv : NextMeetsInv (execSrStart s) := by
  unfold execSrStart
  split
  · exact nextMeetsInv_raise h _
  · split
    · exact nextMeetsInv_raise (h.withSr s.sr.inv_rejectCounts) _
    · exact nextMeetsInv_complete (h.withSr (s.sr.inv_started _ _)) _

theorem execSrPull_meetsInv : NextMeetsInv (execSrPull s) := by
  unfold execSrPull
  split
  · exact nextMeetsInv_raise h _
  · split
    · exact nextMeetsInv_raise h _
    · have hs : s.sr.sstate = .run := by cases hc : s.sr.sstate <;> simp_all
      exact nextMeetsInv_complete (h.withSr (h.sr.advance hs)) _

theorem execSrFail_meetsInv : NextMeetsInv (execSrFail s) := by
  unfold execSrFail
  split
  · exact nextMeetsInv_raise h _
  · exact nextMeetsInv_raise (h.withSr h.sr.writeFailed) _

/-! ### The commands that write LC -/

theorem execLcClr_meetsInv : NextMeetsInv (execLcClr s) :=
  nextMeetsInv_complete (h.withLc s.lc.inv_cleared) _

theorem execLcLd0_meetsInv : NextMeetsInv (execLcLd0 s) :=
  nextMeetsInv_complete (h.withLc (h.lc.withCounts _ _)) _

theorem execLcLd1_meetsInv : NextMeetsInv (execLcLd1 s) :=
  nextMeetsInv_complete (h.withLc (h.lc.withCounts _ _)) _

theorem execLcPutc_meetsInv (b : Byte) : NextMeetsInv (execLcPutc b s) := by
  unfold execLcPutc
  split
  · exact nextMeetsInv_raise h _
  · rename_i hs
    split
    · exact nextMeetsInv_lcFail h (.inr rfl)
    · rename_i hl
      exact nextMeetsInv_complete (h.withLc (h.lc.putc (not_not.mp hs) hl b)) _

theorem execLcEnc_meetsInv : NextMeetsInv (execLcEnc s) := by
  unfold execLcEnc
  split
  · exact nextMeetsInv_raise h _
  · rename_i hs
    split
    · exact nextMeetsInv_lcFail h (.inr rfl)
    · rename_i hl
      exact nextMeetsInv_complete (h.withLc (h.lc.encoded (not_not.mp hs) (not_lt.mp hl))) _

theorem execLcDec_meetsInv : NextMeetsInv (execLcDec s) := by
  unfold execLcDec
  split
  · exact nextMeetsInv_raise h _
  · rename_i hs
    split
    · exact nextMeetsInv_lcFail h (.inl rfl)
    · rename_i v0 v1 f hd
      have hf : f.length ≤ s.cfg.lcBufBytes := (dec_length_lt hd).le.trans h.lc.ibuf_le
      exact nextMeetsInv_complete (h.withLc (h.lc.decoded (not_not.mp hs) hf v0 v1)) _

theorem execLcGetc_meetsInv : NextMeetsInv (execLcGetc s) := by
  unfold execLcGetc
  split
  · exact nextMeetsInv_raise h _
  · rename_i hs
    split
    · exact nextMeetsInv_raise h _
    · split
      · rintro _ ⟨⟩
      · rename_i b hb
        have hl := (List.getElem?_eq_some_iff.mp hb).1
        exact nextMeetsInv_complete (h.withLc (h.lc.getc (not_not.mp hs) hl)) _

/-! ### Every command, and every step -/

theorem exec_meetsInv (i : Instr) : NextMeetsInv (exec i s) := by
  cases i with
  | nop | gstat | pcaStat | tblRd | srRdpos | srStat | lcStat => exact nextMeetsInv_complete h _
  | pcaRd0 | pcaRd1 | srRdlen | lcRd0 | lcRd1 | lcRdlen => exact nextMeetsInv_read h _ _
  | pcaClr => exact execPcaClr_meetsInv h
  | pcaPush b => exact execPcaPush_meetsInv h b
  | pcaEnd => exact execPcaEnd_meetsInv h
  | pcaFail => exact execPcaFail_meetsInv h
  | srLd0 => exact execSrLd0_meetsInv h
  | srLd1 => exact execSrLd1_meetsInv h
  | srStart => exact execSrStart_meetsInv h
  | srPull => exact execSrPull_meetsInv h
  | srFail => exact execSrFail_meetsInv h
  | lcClr => exact execLcClr_meetsInv h
  | lcLd0 => exact execLcLd0_meetsInv h
  | lcLd1 => exact execLcLd1_meetsInv h
  | lcPutc b => exact execLcPutc_meetsInv h b
  | lcEnc => exact execLcEnc_meetsInv h
  | lcDec => exact execLcDec_meetsInv h
  | lcGetc => exact execLcGetc_meetsInv h

theorem step_meetsInv : NextMeetsInv (step s) := by
  obtain ⟨-, hs⟩ | ⟨rest, -, hs⟩ | ⟨w, d, rest, i, -, -, hs⟩ | ⟨w, d, rest, e, -, -, hs⟩ :=
    step_cases s
  · rw [hs]; exact nextMeetsInv_next h
  · rw [hs]; exact nextMeetsInv_next (h.takeReset rest)
  · rw [hs]; exact exec_meetsInv (h.taken d rest) i
  · rw [hs]; exact nextMeetsInv_next ((h.taken d rest).erred .illegalCommand)

end

/-- Settles O13, by the kind of step and, for a legal word, by the command. -/
theorem stepKeepsInvariant : Obligations.StepKeepsInvariant :=
  fun _ t h hstep => step_meetsInv h t hstep

/-- Settles O14: every register's reset value of R51 meets its unit's invariant. -/
theorem resetMeetsInvariant : Obligations.ResetMeetsInvariant :=
  fun _ hc => State.inv_resetWith hc

end Sys2Proof.Machine

/-! The configuration across a step, and what a step of one core does to a system of cores. -/

namespace Sys2Proof.Machine

theorem exec_cfg {i : Instr} {s t : State} (h : exec i s = .next t) : t.cfg = s.cfg := by
  obtain ⟨u, d, w, rfl⟩ | ⟨u, e, w, rfl, -⟩ := exec_next h
  · exact w.cfg
  · exact w.cfg

theorem step_cfg {s t : State} (h : step s = .next t) : t.cfg = s.cfg := by
  obtain ⟨-, hs⟩ | ⟨rest, -, hs⟩ | ⟨w, d, rest, i, -, -, hs⟩ | ⟨w, d, rest, e, -, -, hs⟩ :=
    step_cases s
  · rw [hs] at h; cases h; rfl
  · rw [hs] at h; cases h; rfl
  · rw [hs] at h; exact (exec_cfg h).trans (s.taken_cfg d rest)
  · rw [hs] at h; cases h; rfl

/-- Replacing one core's state by one in the same configuration keeps a system one R8 allows. -/
theorem System.set_wellFormed {y : System} {k : Nat} {s t : State} (hs : y[k]? = some s)
    (hc : t.cfg = s.cfg) (h : y.WellFormed) : System.WellFormed (y.set k t) := by
  obtain ⟨hlen, hcfg⟩ := h
  refine ⟨by simpa using hlen, fun x hx => ?_⟩
  rcases List.mem_or_eq_of_mem_set hx with hx | rfl
  · exact hcfg x hx
  · rw [hc]; exact hcfg s (List.mem_of_getElem? hs)

/-- Settles O27: the step sets place `k` of the list to that core's own next state, which has the
same configuration. -/
theorem instancesShareNothing : Obligations.InstancesShareNothing := by
  intro y z k h
  obtain ⟨s, t, hs, ht, rfl⟩ := System.stepAt_cases h
  have hk : k < y.length := (List.getElem?_eq_some_iff.mp hs).1
  refine ⟨List.length_set, fun j hj => List.getElem?_set_ne hj.symm,
    System.set_wellFormed hs (step_cfg ht), s, t, hs, ?_, ht⟩
  exact List.getElem?_set_self hk

end Sys2Proof.Machine

/-! Hexadecimal text (R14): length, digits, leading digit and value of what `hexDigits` writes. -/

namespace Sys2Proof.Machine

/-- The value of a lower-case hex digit, as R14's table gives it. -/
def lowerHexValue (c : Byte) : Nat :=
  if c.toNat ≤ 0x39 then c.toNat - 0x30 else c.toNat - 0x61 + 10

/-- The value of a lower-case hex string, most significant digit first. -/
def lowerHexNumber (x : ByteString) : Nat := x.foldl (fun n c => 16 * n + lowerHexValue c) 0

@[simp] theorem lowerHexNumber_append_singleton (x : ByteString) (c : Byte) :
    lowerHexNumber (x ++ [c]) = 16 * lowerHexNumber x + lowerHexValue c := by
  simp [lowerHexNumber]

theorem lowerHexValue_hexchar {d : Nat} (h : d < 16) : lowerHexValue (hexchar d) = d := by
  interval_cases d <;> decide

theorem hexchar_isLowerHex {d : Nat} (h : d < 16) :
    (0x30 ≤ (hexchar d).toNat ∧ (hexchar d).toNat ≤ 0x39) ∨
      (0x61 ≤ (hexchar d).toNat ∧ (hexchar d).toNat ≤ 0x66) := by
  interval_cases d <;> decide

theorem hexchar_ne_zeroDigit {d : Nat} (h0 : 0 < d) (h : d < 16) : hexchar d ≠ 0x30 := by
  interval_cases d <;> decide

theorem hexDigits_length_pos (n v : Nat) : 1 ≤ (hexDigits (n + 1) v).length := by
  rw [hexDigits]
  split <;> simp

theorem hexDigits_length_le (n v : Nat) : (hexDigits n v).length ≤ n := by
  induction n generalizing v with
  | zero => simp [hexDigits]
  | succ n ih =>
    rw [hexDigits]
    split
    · simp
    · simpa using ih (v / 16)

/-- The digits of a positive number begin with a digit other than 0. -/
theorem hexDigits_head? {n v : Nat} (h0 : 0 < v) (h : v < 16 ^ n) :
    ∃ d, 0 < d ∧ d < 16 ∧ (hexDigits n v).head? = some (hexchar d) := by
  induction n generalizing v with
  | zero => omega
  | succ n ih =>
    rw [hexDigits]
    split
    · exact ⟨v, h0, ‹_›, rfl⟩
    · have hq : v / 16 < 16 ^ n := by rw [pow_succ] at h; omega
      obtain ⟨d, hd0, hd, hh⟩ := ih (by omega) hq
      exact ⟨d, hd0, hd, by simp [List.head?_append, hh]⟩

theorem lowerHexNumber_hexDigits {n v : Nat} (h : v < 16 ^ n) :
    lowerHexNumber (hexDigits n v) = v := by
  induction n generalizing v with
  | zero =>
    obtain rfl : v = 0 := by omega
    rfl
  | succ n ih =>
    rw [hexDigits]
    split
    · simp [lowerHexNumber, lowerHexValue_hexchar ‹v < 16›]
    · have hq : v / 16 < 16 ^ n := by rw [pow_succ] at h; omega
      rw [lowerHexNumber_append_singleton, ih hq, lowerHexValue_hexchar (by omega)]
      omega

/-- Only zero is written with a leading "0". -/
theorem hex_eq_zero_of_head? {v : Count} (h : (hex v).head? = some 0x30) : hex v = [0x30] := by
  rcases Nat.eq_zero_or_pos v.toNat with h0 | h0
  · rw [hex, h0]; rfl
  · obtain ⟨d, hd0, hd, hh⟩ := hexDigits_head? (n := 16) h0 v.isLt
    rw [hex, hh] at h
    exact absurd (Option.some.inj h) (hexchar_ne_zeroDigit hd0 hd)

/-- Settles O54: each clause is a fact about `hexDigits 16`, whose 16 digits hold every count. -/
theorem hexIsShortestLowerCase : Obligations.HexIsShortestLowerCase := by
  intro v
  refine ⟨hexDigits_length_pos _ _, hexDigits_length_le _ _, fun c hc => ?_,
    hex_eq_zero_of_head?, lowerHexNumber_hexDigits v.isLt⟩
  obtain ⟨d, hd, rfl⟩ := mem_hexDigits _ _ c hc
  exact hexchar_isLowerHex hd

end Sys2Proof.Machine

/-! The state across a reset event, and what every step answers and keeps of the state (R20, R25,
R51, R80, R250). -/

namespace Sys2Proof.Machine

/-! ### Reset -/

/-- TBL's four bits hold the number of set bits of any byte. -/
theorem tbl_toNat (b : Byte) : (tbl b).toNat = popcount b := by
  have := popcount_le b
  rw [tbl, BitVec.toNat_ofNat]
  omega

/-- The number of set bits, counted over the indices of the byte. -/
theorem popcount_eq_countP (b : Byte) :
    popcount b = (List.finRange 8).countP fun i => b[i] := by
  rw [popcount, ← List.countP_eq_length_filter, ← List.map_coe_finRange_eq_range, List.countP_map]
  rfl

/-- Settles O10: the registers by R51's definitions, and TBL through `popcount`. -/
theorem resetValues : Obligations.ResetValues := by
  intro c
  have htbl (b : Byte) : (tbl b).toNat = (List.finRange 8).countP fun i => b[i] :=
    (tbl_toNat b).trans (popcount_eq_countP b)
  simpa [State.resetWith, ErrorLog.reset, Pca.reset, Sr.reset, Lc.reset] using htbl

theorem step_of_reset {s : State} {rest : List Input} (h : s.port.pending = .reset :: rest) :
    step s = .next (s.takeReset rest) := by
  simp [step, h]

/-- Settles O9: the state that `takeReset` gives, written out. -/
theorem resetEventResetsEveryRegister : Obligations.ResetEventResetsEveryRegister :=
  fun _ _ h => step_of_reset h

/-! ### Every step answers, in the same configuration -/

/-- OPOS within OBUF leaves no command a way to stop. -/
theorem exec_total (i : Instr) {s : State} (h : s.lc.opos ≤ s.lc.obuf.length) :
    ∃ t, exec i s = .next t := by
  have hshape := exec_shape i s
  generalize exec i s = r at hshape ⊢
  cases hshape with
  | ok u d => exact ⟨_, complete_eq d u⟩
  | fatal u e => exact ⟨_, raise_eq e u⟩
  | badState => exact ⟨_, raise_eq .badState s⟩
  | endOfStream => exact ⟨_, raise_eq .endOfStream s⟩
  | pastEnd _ _ hp => omega

/-- Settles O12: only a legal word can stop, and R41's bound on OPOS rules that out. -/
theorem stepIsTotal : Obligations.StepIsTotal := by
  intro s h
  obtain ⟨-, hs⟩ | ⟨_, -, hs⟩ | ⟨_, d, rest, i, -, -, hs⟩ | ⟨_, _, _, _, -, -, hs⟩ := step_cases s
  · exact ⟨_, hs⟩
  · exact ⟨_, hs⟩
  · rw [hs]; exact exec_total i (h.taken d rest).lc.opos_le
  · exact ⟨_, hs⟩

/-- Settles O15, by the kind of step: every way a command ends keeps the configuration. -/
theorem configurationNeverChanges : Obligations.ConfigurationNeverChanges :=
  fun _ _ h => step_cfg h

/-! ### GERR -/

theorem erred_gerr_mono {s : State} (e : ErrorCode) {k : Nat} (hk : s.log.gerr.getLsbD k = true) :
    (s.erred e.bits).log.gerr.getLsbD k = true := by
  rw [erred_gerr_getLsbD, hk, Bool.true_or]

/-- No command clears a bit of GERR. -/
theorem exec_gerr_mono {i : Instr} {s t : State} (h : exec i s = .next t) {k : Nat}
    (hk : s.log.gerr.getLsbD k = true) : t.log.gerr.getLsbD k = true := by
  obtain ⟨u, d, w, rfl⟩ | ⟨u, e, w, rfl, -⟩ := exec_next h
  · rwa [State.answered_log, w.log]
  · exact erred_gerr_mono e (by rwa [w.log])

/-- Settles O17, by the kind of step: a command word only adds bits to GERR. -/
theorem gerrIsSticky : Obligations.GerrIsSticky := by
  intro s t k h hk
  obtain ⟨-, hs⟩ | ⟨rest, hp, -⟩ | ⟨w, d, rest, i, -, -, hs⟩ | ⟨w, d, rest, e, -, -, hs⟩ :=
    step_cases s
  · rw [hs] at h; cases h; exact .inl hk
  · exact .inr ⟨rest, hp⟩
  · rw [hs] at h; exact .inl (exec_gerr_mono h hk)
  · rw [hs] at h; cases h
    exact .inl (erred_gerr_mono (s := s.taken d rest) .illegalCommand hk)

end Sys2Proof.Machine

/-! The error log is written by commands but read by GSTAT alone (R47): with any other log a command
makes the same tests and the same writes. -/

namespace Sys2Proof.Machine

/-- The state with another error log. -/
def State.withLog (s : State) (g : ErrorLog) : State := { s with log := g }

@[simp] theorem State.withLog_lc (s : State) (g : ErrorLog) : (s.withLog g).lc = s.lc := rfl

/-- If `r` answers a next state, `r'` answers one with the same unit registers and the same port. -/
def AgreeOffLog (r r' : Result) : Prop :=
  ∀ t, r = .next t → ∃ t', r' = .next t' ∧
    t'.pca = t.pca ∧ t'.sr = t.sr ∧ t'.lc = t.lc ∧ t'.port = t.port

theorem agreeOffLog_complete (d : Count) (s : State) (g : ErrorLog) :
    AgreeOffLog (complete d s) (complete d (s.withLog g)) := by
  rintro _ ⟨⟩
  exact ⟨_, rfl, rfl, rfl, rfl, rfl⟩

theorem agreeOffLog_raise (e : ErrorCode) (s : State) (g : ErrorLog) :
    AgreeOffLog (raise e s) (raise e (s.withLog g)) := by
  rintro _ ⟨⟩
  exact ⟨_, rfl, rfl, rfl, rfl, rfl⟩

theorem AgreeOffLog.ite {c : Prop} [Decidable c] {r r' q q' : Result} (hr : AgreeOffLog r r')
    (hq : AgreeOffLog q q') : AgreeOffLog (if c then r else q) (if c then r' else q') := by
  split
  · exact hr
  · exact hq

section
variable (s : State) (g : ErrorLog)

/-- LC.DEC tests and decodes IBUF alone. -/
theorem execLcDec_agreeOffLog : AgreeOffLog (execLcDec s) (execLcDec (s.withLog g)) := by
  unfold execLcDec
  refine .ite (agreeOffLog_raise _ s g) ?_
  rw [State.withLog_lc]
  cases dec s.lc.ibuf with
  | none => exact agreeOffLog_raise _ _ g
  | some r => exact agreeOffLog_complete _ _ g

/-- LC.GETC tests LSTATE, OPOS and OBUF alone, and stops with any log where it stops. -/
theorem execLcGetc_agreeOffLog : AgreeOffLog (execLcGetc s) (execLcGetc (s.withLog g)) := by
  unfold execLcGetc
  refine .ite (agreeOffLog_raise _ s g) (.ite (agreeOffLog_raise _ s g) ?_)
  rw [State.withLog_lc]
  cases s.lc.obuf[s.lc.opos]? with
  | none => rintro _ ⟨⟩
  | some b => exact agreeOffLog_complete _ _ g

/-- Every command but GSTAT is one of a few shapes of tests on the units, ended by `complete` or
`raise`. -/
theorem exec_agreeOffLog {i : Instr} (hi : i ≠ .gstat) :
    AgreeOffLog (exec i s) (exec i (s.withLog g)) := by
  cases i with
  | gstat => exact absurd rfl hi
  | nop | pcaStat | tblRd | srRdpos | srStat | lcClr | lcLd0 | lcLd1 | lcStat =>
    exact agreeOffLog_complete _ _ g
  | pcaClr | pcaEnd | pcaRd0 | pcaRd1 | srLd0 | srLd1 | srRdlen | lcRd0 | lcRd1 | lcRdlen =>
    exact .ite (agreeOffLog_raise _ _ g) (agreeOffLog_complete _ _ g)
  | pcaFail | srFail => exact .ite (agreeOffLog_raise _ _ g) (agreeOffLog_raise _ _ g)
  | pcaPush | srStart | srPull | lcPutc | lcEnc =>
    exact .ite (agreeOffLog_raise _ _ g)
      (.ite (agreeOffLog_raise _ _ g) (agreeOffLog_complete _ _ g))
  | lcDec => exact execLcDec_agreeOffLog s g
  | lcGetc => exact execLcGetc_agreeOffLog s g

end

/-- Settles O19, command by command. -/
theorem onlyGstatReadsLog : Obligations.OnlyGstatReadsLog :=
  fun _ s t g hi h => exec_agreeOffLog s g hi t h

end Sys2Proof.Machine

/-! The transaction on the port: the step on a legal word, and the steps on inputs the host issued
(R67, R70, R71, R80). -/

namespace Sys2Proof.Machine

theorem step_of_decode {s : State} {w : CmdWord} {din : Count} {rest : List Input} {i : Instr}
    (hp : s.port.pending = .command w din :: rest) (hd : decode w = .ok i) :
    step s = exec i (s.taken din rest) := by
  simp [step, hp, hd, accept_eq]

/-- Settles O7: the step takes the word's own `din` off the port and runs the command. -/
theorem stepRunsDecodedCommand : Obligations.StepRunsDecodedCommand :=
  fun _ _ _ _ _ hp hd => step_of_decode hp hd

/-- The table reads a command's opcode and operand back, and a command that takes no byte has
operand 0, so none of R90's checks fails. -/
theorem decode_encode (i : Instr) : decode (encode i) = .ok i := by
  have htable := instrOf_opcode i
  obtain ⟨-, -, hbyte⟩ := of_instrOf _ _ _ htable
  rw [decode, encode, fieldsOf_wordOf]
  simpa [decodeFields, htable] using hbyte

/-- The first of several steps, on a command the host issued. -/
theorem run_succ_of_issue {i : Instr} {d : Count} {s u : State} {rest : List Input} (n : Nat)
    (hp : s.port.pending = issue i d :: rest) (he : exec i (s.taken d rest) = .next u) :
    core.run (n + 1) s = core.run n u :=
  run_succ core n s u ((step_of_decode hp (decode_encode i)).trans he)

end Sys2Proof.Machine

/-! The frame of a command across units: it writes its own unit, and the idempotent reads write none
(R68, R72). -/

namespace Sys2Proof.Machine

/-- Settles O18: a command writes at most its own unit before it answers, and the answer writes
none. -/
theorem unitsAreIndependent : Obligations.UnitsAreIndependent := by
  intro i s t h
  obtain ⟨u, d, w, rfl⟩ | ⟨u, e, w, rfl, -⟩ := exec_next h
  · exact ⟨w.pca, w.sr, w.lc⟩
  · exact ⟨w.pca, w.sr, w.lc⟩

/-- `r` completes, or is a rejection with BAD_STATE, without a write to `s`. -/
def ReadsOnly (s : State) (r : Result) : Prop := (∃ d, r = complete d s) ∨ r = raise .badState s

theorem readsOnly_complete (d : Count) (s : State) : ReadsOnly s (complete d s) := .inl ⟨d, rfl⟩

theorem readsOnly_ite (c : Prop) [Decidable c] (d : Count) (s : State) :
    ReadsOnly s (if c then raise .badState s else complete d s) := by
  split
  · exact .inr rfl
  · exact readsOnly_complete d s

/-- The twelve idempotent reads, in R68's order: six test their unit's state first. -/
theorem exec_readsOnly {i : Instr} (hi : IsIdempotentRead i) (s : State) :
    ReadsOnly s (exec i s) := by
  obtain hi | ⟨b, rfl⟩ := hi
  · simp only [idempotentReads, List.mem_cons, List.not_mem_nil, or_false] at hi
    rcases hi with rfl | rfl | rfl | rfl | rfl | rfl | rfl | rfl | rfl | rfl | rfl
    · exact readsOnly_ite _ _ s
    · exact readsOnly_ite _ _ s
    · exact readsOnly_complete _ s
    · exact readsOnly_ite _ _ s
    · exact readsOnly_complete _ s
    · exact readsOnly_complete _ s
    · exact readsOnly_ite _ _ s
    · exact readsOnly_ite _ _ s
    · exact readsOnly_ite _ _ s
    · exact readsOnly_complete _ s
    · exact readsOnly_complete _ s
  · exact readsOnly_complete _ s

/-- Settles O24: a read answers OK, or is rejected with BAD_STATE and then logs it. -/
theorem readsChangeNothing : Obligations.ReadsChangeNothing := by
  intro i s t hi h
  obtain ⟨d, he⟩ | he := exec_readsOnly hi s
  · rw [he] at h; cases h
    exact ⟨rfl, rfl, rfl, .inl rfl⟩
  · rw [he] at h; cases h
    exact ⟨rfl, rfl, rfl, .inr rfl⟩

end Sys2Proof.Machine

/-! What a command of one unit depends on: two states that agree outside the registers of the other
units (R72). -/

namespace Sys2Proof.Machine

/-- `s` and `u` differ at most in the registers of units other than `n`. -/
structure SameForUnit (n : UnitName) (s u : State) : Prop where
  cfg : u.cfg = s.cfg
  log : u.log = s.log
  port : u.port = s.port
  pca : n = .pca → u.pca = s.pca
  sr : n = .sr → u.sr = s.sr
  lc : n = .lc → u.lc = s.lc

/-- The state `s` with the registers of every unit but `n` taken from `u`. -/
def State.withOthers (n : UnitName) (s u : State) : State :=
  match n with
  | .system => { s with pca := u.pca, sr := u.sr, lc := u.lc }
  | .pca => { s with sr := u.sr, lc := u.lc }
  | .sr => { s with pca := u.pca, lc := u.lc }
  | .lc => { s with pca := u.pca, sr := u.sr }

theorem sameForUnit_withOthers (n : UnitName) (s u : State) :
    SameForUnit n s (s.withOthers n u) := by
  cases n <;> exact ⟨rfl, rfl, rfl, by simp [State.withOthers], by simp [State.withOthers],
    by simp [State.withOthers]⟩

theorem SameForUnit.withOthers_eq {n : UnitName} {s u : State} (h : SameForUnit n s u) :
    s.withOthers n u = u := by
  obtain ⟨hcfg, hlog, hport, hpca, hsr, hlc⟩ := h
  cases n with
  | system => simp [State.withOthers, ← hcfg, ← hlog, ← hport]
  | pca => simp [State.withOthers, ← hcfg, ← hlog, ← hport, ← hpca]
  | sr => simp [State.withOthers, ← hcfg, ← hlog, ← hport, ← hsr]
  | lc => simp [State.withOthers, ← hcfg, ← hlog, ← hport, ← hlc]

/-- If `r` answers a next state, `r'` answers one that agrees with it for unit `n`. -/
def AgreeForUnit (n : UnitName) (r r' : Result) : Prop :=
  ∀ t, r = .next t → ∃ v, r' = .next v ∧ SameForUnit n t v

theorem AgreeForUnit.ite {n : UnitName} {c : Prop} [Decidable c] {r r' q q' : Result}
    (hr : AgreeForUnit n r r') (hq : AgreeForUnit n q q') :
    AgreeForUnit n (if c then r else q) (if c then r' else q') := by
  split
  · exact hr
  · exact hq

section
variable {n : UnitName} {s u : State} (h : SameForUnit n s u)
include h

theorem SameForUnit.withPca (p : Pca) : SameForUnit n (s.withPca p) (u.withPca p) :=
  { h with pca := fun _ => rfl }

theorem SameForUnit.withSr (r : Sr) : SameForUnit n (s.withSr r) (u.withSr r) :=
  { h with sr := fun _ => rfl }

theorem SameForUnit.withLc (l : Lc) : SameForUnit n (s.withLc l) (u.withLc l) :=
  { h with lc := fun _ => rfl }

theorem SameForUnit.agree_complete (d : Count) : AgreeForUnit n (complete d s) (complete d u) := by
  rintro _ ⟨⟩
  exact ⟨_, rfl, { h with port := by simp [State.respond, h.port] }⟩

theorem SameForUnit.agree_raise (e : ErrorCode) : AgreeForUnit n (raise e s) (raise e u) := by
  rintro _ ⟨⟩
  exact ⟨_, rfl, { h with
    log := by simp [State.respond, State.logError, h.log]
    port := by simp [State.respond, State.logError, h.port] }⟩

end

theorem execLcDec_agreeForUnit (s u : State) :
    AgreeForUnit .lc (execLcDec s) (execLcDec (s.withOthers .lc u)) := by
  have h := sameForUnit_withOthers .lc s u
  unfold execLcDec
  refine .ite (h.agree_raise _) ?_
  rw [h.lc rfl]
  cases dec s.lc.ibuf with
  | none => exact (h.withLc _).agree_raise _
  | some v => exact (h.withLc _).agree_complete _

/-- LC.GETC stops, whatever the other units hold, where it stops. -/
theorem execLcGetc_agreeForUnit (s u : State) :
    AgreeForUnit .lc (execLcGetc s) (execLcGetc (s.withOthers .lc u)) := by
  have h := sameForUnit_withOthers .lc s u
  unfold execLcGetc
  refine .ite (h.agree_raise _) (.ite (h.agree_raise _) ?_)
  rw [h.lc rfl]
  cases s.lc.obuf[s.lc.opos]? with
  | none => rintro _ ⟨⟩
  | some b => exact (h.withLc _).agree_complete _

/-- The tests of a command and what it writes are on its own unit, the configuration, the log and
the port. -/
theorem exec_agreeForUnit (i : Instr) (s u : State) :
    AgreeForUnit (unitName i) (exec i s) (exec i (s.withOthers (unitName i) u)) := by
  have h := sameForUnit_withOthers (unitName i) s u
  cases i with
  | nop | gstat | pcaStat | tblRd | srRdpos | srStat | lcStat => exact h.agree_complete _
  | pcaRd0 | pcaRd1 | srRdlen | lcRd0 | lcRd1 | lcRdlen =>
    exact .ite (h.agree_raise _) (h.agree_complete _)
  | pcaClr | pcaEnd => exact .ite (h.agree_raise _) ((h.withPca _).agree_complete _)
  | pcaPush =>
    exact .ite (h.agree_raise _)
      (.ite ((h.withPca _).agree_raise _) ((h.withPca _).agree_complete _))
  | pcaFail => exact .ite (h.agree_raise _) ((h.withPca _).agree_raise _)
  | srLd0 | srLd1 => exact .ite (h.agree_raise _) ((h.withSr _).agree_complete _)
  | srStart =>
    exact .ite (h.agree_raise _)
      (.ite ((h.withSr _).agree_raise _) ((h.withSr _).agree_complete _))
  | srPull =>
    exact .ite (h.agree_raise _) (.ite (h.agree_raise _) ((h.withSr _).agree_complete _))
  | srFail => exact .ite (h.agree_raise _) ((h.withSr _).agree_raise _)
  | lcClr | lcLd0 | lcLd1 => exact (h.withLc _).agree_complete _
  | lcPutc | lcEnc =>
    exact .ite (h.agree_raise _)
      (.ite ((h.withLc _).agree_raise _) ((h.withLc _).agree_complete _))
  | lcDec => exact execLcDec_agreeForUnit s u
  | lcGetc => exact execLcGetc_agreeForUnit s u

/-- Settles O20, command by command: the second state is the first with the other units replaced. -/
theorem otherUnitsAreNotRead : Obligations.OtherUnitsAreNotRead := by
  intro i s t u ht hcfg hlog hport hpca hsr hlc
  have hu : SameForUnit (unitName i) s u := ⟨hcfg, hlog, hport, hpca, hsr, hlc⟩
  obtain ⟨v, hv, h⟩ := exec_agreeForUnit i s u t ht
  rw [hu.withOthers_eq] at hv
  exact ⟨v, hv, h.log, h.port, h.pca, h.sr, h.lc⟩

end Sys2Proof.Machine

/-! The stream bit by bit (R140, R153), and the bytes of a stream and of OBUF in order (R71,
R152). -/

namespace Sys2Proof.Machine

/-! ### The output law -/

/-- Under alignment the boundary byte makes up exactly for the remainders (R145). -/
theorem geometry_len_of_aligned {c0 c1 : Count} (h : (c0.toNat + c1.toNat) % 8 = 0) :
    (geometry c0 c1).len.toNat = (c0.toNat + c1.toNat) / 8 := by
  rw [geometry_len_toNat, geometry_bnd]
  by_cases hb : 0 < c0.toNat % 8 + c1.toNat % 8
  · rw [decide_eq_true hb, Bool.toNat_true]; omega
  · rw [decide_eq_false hb, Bool.toNat_false]; omega

/-- Bit `j`, most significant first, of the byte at `p`: zeros before Z, then the boundary byte from
its bit E0 on, then ones. -/
theorem byteAt_started_bit (r : Sr) (c0 c1 p : Count) {j : Nat} (hj : j < 8) :
    (byteAt (r.started (geometry c0 c1)) p).getLsbD (7 - j) =
      decide (c0.toNat ≤ 8 * p.toNat + j) := by
  have hz : (r.started (geometry c0 c1)).z.toNat = c0.toNat / 8 := geometry_z_toNat c0 c1
  have hb : (r.started (geometry c0 c1)).bnd = decide (0 < c0.toNat % 8 + c1.toNat % 8) :=
    geometry_bnd c0 c1
  have he : (r.started (geometry c0 c1)).e0.toNat = c0.toNat % 8 := geometry_e0_toNat c0 c1
  have hones : (0xFF : Byte).getLsbD (7 - j) = true := by interval_cases j <;> decide
  obtain hp | hp | hp := lt_trichotomy p.toNat (c0.toNat / 8)
  · rw [byteAt_zero _ _ (by omega), decide_eq_false (by omega)]
    exact BitVec.getLsbD_zero
  · by_cases hr : 0 < c0.toNat % 8 + c1.toNat % 8
    · rw [byteAt_boundary _ _ (by rw [hb, decide_eq_true hr]) (by omega), boundaryByte_bit _ _ hj,
        he]
      exact decide_eq_decide.mpr (by omega)
    · rw [byteAt_ones _ _ (by omega) (.inl (by rw [hb, decide_eq_false hr])),
        decide_eq_true (by omega), hones]
  · rw [byteAt_ones _ _ (by omega) (.inr (by omega)), decide_eq_true (by omega), hones]

theorem execSrStart_of_aligned {s : State} (hs : s.sr.sstate ≠ .run)
    (h : (s.sr.c0.toNat + s.sr.c1.toNat) % 8 = 0) :
    exec .srStart s = complete 0 (s.withSr (s.sr.started (geometry s.sr.c0 s.sr.c1))) := by
  rw [exec, execSrStart, if_neg hs, if_neg]
  simp [(aligned_iff _ _).mpr h]

/-- Settles O43: bit `i` is bit `i % 8` of byte `i / 8` of the geometry SR.START writes. -/
theorem outputLaw : Obligations.OutputLaw := by
  intro s t i hs ha ht
  rw [execSrStart_of_aligned hs ha] at ht
  cases ht
  refine ⟨geometry_len_of_aligned ha, fun hi => ?_⟩
  have hpos : (BitVec.ofNat 64 (i / 8)).toNat = i / 8 := by
    rw [BitVec.toNat_ofNat]; omega
  have hbit := byteAt_started_bit s.sr s.sr.c0 s.sr.c1 (BitVec.ofNat 64 (i / 8))
    (Nat.mod_lt i (by decide : 0 < 8))
  rw [hpos, Nat.div_add_mod] at hbit
  exact hbit

/-! ### One command, repeated -/

/-- The registers of `s` with the port `p`. -/
def State.withPort (s : State) (p : Port) : State := { s with port := p }

/-- If a command takes the registers `f k` to `f (k + 1)` and returns `out k` for each `k` below
`n`, then `n` of it issued on the port take `f 0` to `f n` and return those words in order. -/
theorem run_repeated {i : Instr} {n : Nat} {f : Nat → State} {out : Nat → Count} {p : Port}
    {rest : List Input}
    (hexec : ∀ k < n, ∀ q, exec i ((f k).withPort q) =
      .next (((f (k + 1)).withPort q).answered 0 (out k)))
    (hp : p.pending = List.replicate n (issue i 0) ++ rest) :
    ∃ q, core.run n ((f 0).withPort p) = .next ((f n).withPort q) ∧ q.pending = rest ∧
      q.responses = p.responses ++ (List.range n).map fun k => ⟨0, out k⟩ := by
  induction n generalizing f out p with
  | zero => exact ⟨p, rfl, hp, by simp⟩
  | succ n ih =>
    obtain ⟨q, hrun, hpend, hresp⟩ := ih (f := fun k => f (k + 1)) (out := fun k => out (k + 1))
      (p := ⟨List.replicate n (issue i 0) ++ rest, 0, p.responses ++ [⟨0, out 0⟩]⟩)
      (fun k hk => hexec (k + 1) (by omega)) rfl
    refine ⟨q, ?_, hpend, ?_⟩
    · exact (run_succ_of_issue (s := (f 0).withPort p) n hp
        (hexec 0 (by omega) ⟨_, 0, p.responses⟩)).trans hrun
    · rw [hresp, List.range_succ_eq_map]
      simp [Function.comp_def]

/-! ### SR.PULL repeated -/

theorem execSrPull_of_run {s : State} (h : s.sr.sstate = .run) :
    exec .srPull s = .next ((s.withSr s.sr.advance).answered 0
      (byteDout (byteAt s.sr s.sr.pos))) := by
  simp [exec, execSrPull, h, complete_eq]

/-- The SR registers when `n` more bytes have been emitted. -/
def Sr.emitted (r : Sr) (n : Nat) : Sr :=
  { r with
    pos := r.pos + BitVec.ofNat 64 n
    sstate := if 0 < n ∧ r.pos.toNat + n = r.len.toNat then .done else r.sstate }

@[simp] theorem Sr.emitted_len (r : Sr) (n : Nat) : (r.emitted n).len = r.len := rfl

theorem Sr.emitted_zero (r : Sr) : r.emitted 0 = r := by simp [Sr.emitted]

/-- POS does not wrap before LEN. -/
theorem Sr.emitted_pos_toNat {r : Sr} {n : Nat} (h : r.pos.toNat + n ≤ r.len.toNat) :
    (r.emitted n).pos.toNat = r.pos.toNat + n := by
  have hlen : r.len.toNat < 2 ^ 64 := r.len.isLt
  rw [Sr.emitted, BitVec.toNat_add, BitVec.toNat_ofNat]
  omega

/-- Before the last byte the stream is in the state it was in. -/
theorem Sr.emitted_sstate_of_lt {r : Sr} {n : Nat} (h : r.pos.toNat + n < r.len.toNat) :
    (r.emitted n).sstate = r.sstate :=
  if_neg fun hn => h.ne hn.2

theorem Sr.emitted_advance {r : Sr} {n : Nat} (h : r.pos.toNat + n < r.len.toNat) :
    (r.emitted n).advance = r.emitted (n + 1) := by
  have hpos : (r.emitted n).pos + 1 = (r.emitted (n + 1)).pos := by
    simp only [Sr.emitted, BitVec.ofNat_add, BitVec.add_assoc]
    rfl
  have hlast : (r.emitted (n + 1)).pos = r.len ↔ r.pos.toNat + (n + 1) = r.len.toNat := by
    rw [← BitVec.toNat_inj, Sr.emitted_pos_toNat h]
  rw [Sr.advance, hpos, Sr.emitted_sstate_of_lt h]
  simp only [Sr.emitted_len, hlast]
  simp [Sr.emitted]

/-- One pull after `k`: the byte at POS + k, of the stream as it was opened. -/
theorem execSrPull_emitted {s : State} {k : Nat} (hs : s.sr.sstate = .run)
    (hk : s.sr.pos.toNat + k < s.sr.len.toNat) (q : Port) :
    exec .srPull ((s.withSr (s.sr.emitted k)).withPort q) =
      .next (((s.withSr (s.sr.emitted (k + 1))).withPort q).answered 0
        (byteDout (byteAt s.sr (s.sr.pos + BitVec.ofNat 64 k)))) := by
  rw [execSrPull_of_run ((Sr.emitted_sstate_of_lt hk).trans hs), ← Sr.emitted_advance hk]
  rfl

/-- Settles O44: each pull emits one more byte, and only the last one reaches LEN. -/
theorem pullsEmitInOrder : Obligations.PullsEmitInOrder := by
  intro s n rest hs hn hp
  obtain ⟨q, hrun, hpend, hresp⟩ := run_repeated (f := fun k => s.withSr (s.sr.emitted k))
    (fun k hk => execSrPull_emitted hs (by omega)) hp
  have hdone : (s.sr.emitted n).sstate =
      if 0 < n ∧ s.sr.pos.toNat + n = s.sr.len.toNat then .done else .run := by
    rw [← hs]; rfl
  rw [Sr.emitted_zero] at hrun
  refine ⟨_, hrun, hresp, Sr.emitted_pos_toNat hn, rfl, ?_, ?_, hpend, rfl, rfl, rfl⟩
  · change (s.sr.emitted n).sstate = .done ↔ _
    rw [hdone]
    simp
  · change (s.sr.emitted n).sstate = .done ∨ (s.sr.emitted n).sstate = .run
    rw [hdone]
    exact ite_eq_or_eq _ _ _

/-! ### LC.GETC repeated -/

theorem execLcGetc_of_getElem? {s : State} {b : Byte} (hs : s.lc.lstate = .out)
    (hb : s.lc.obuf[s.lc.opos]? = some b) :
    exec .lcGetc s =
      .next ((s.withLc { s.lc with opos := s.lc.opos + 1 }).answered 0 (byteDout b)) := by
  have hlt := (List.getElem?_eq_some_iff.mp hb).1
  simp [exec, execLcGetc, hs, hlt.ne, hb, complete_eq]

/-- The next `n` elements of a list, by their places. -/
theorem map_getD_range_eq_take_drop {l : ByteString} {i n : Nat} (h : i + n ≤ l.length) :
    (List.range n).map (fun k => l.getD (i + k) 0) = (l.drop i).take n := by
  refine List.ext_getElem (by simp; omega) fun k hk _ => ?_
  rw [List.length_map, List.length_range] at hk
  simp [show i + k < l.length by omega]

/-- Settles O59: each get reads one more byte of OBUF. -/
theorem getsReadOutputInOrder : Obligations.GetsReadOutputInOrder := by
  intro s n rest hs hn hp
  have hexec (k : Nat) (hk : k < n) (q : Port) :
      exec .lcGetc ((s.withLc { s.lc with opos := s.lc.opos + k }).withPort q) =
        .next (((s.withLc { s.lc with opos := s.lc.opos + (k + 1) }).withPort q).answered 0
          (byteDout (s.lc.obuf.getD (s.lc.opos + k) 0))) := by
    have hb : s.lc.obuf[s.lc.opos + k]? = some (s.lc.obuf.getD (s.lc.opos + k) 0) := by
      simp [show s.lc.opos + k < s.lc.obuf.length by omega]
    exact execLcGetc_of_getElem? hs hb
  obtain ⟨q, hrun, hpend, hresp⟩ :=
    run_repeated (f := fun k => s.withLc { s.lc with opos := s.lc.opos + k }) hexec hp
  refine ⟨_, hrun, ?_, rfl, hpend, rfl, rfl, rfl, rfl⟩
  rw [← map_getD_range_eq_take_drop hn, List.map_map]
  exact hresp

end Sys2Proof.Machine

/-! The command set as words (R82 to R90): decoding inverts encoding, its checks are those of R85 to
R87 in R90's order, and a word that fails one of them is rejected. -/

namespace Sys2Proof.Machine

/-! ### Decode and encode -/

/-- A word that decodes passes R90's checks: its opcode is in the table, RSV is 0, and IMM8 is 0 on
a command that takes no byte. -/
theorem of_decodeFields {f : Fields} {i : Instr} (h : decodeFields f = .ok i) :
    instrOf f.op f.imm8 = some i ∧ f.rsv = 0 ∧ (takesByte f.op = false → f.imm8 = 0) := by
  unfold decodeFields at h
  split at h
  · cases h
  · rename_i j htable
    split_ifs at h with hrsv hbyte
    cases h
    exact ⟨htable, not_not.mp hrsv, by simpa using hbyte⟩

/-- The three checks leave no field of the word free. -/
theorem encode_of_decode {w : CmdWord} {i : Instr} (h : decode w = .ok i) : encode i = w := by
  obtain ⟨htable, hrsv, himm⟩ := of_decodeFields h
  obtain ⟨hop, hused, hunused⟩ := of_instrOf _ _ _ htable
  have hbyte : byteOperand i = (fieldsOf w).imm8 := by
    cases htakes : takesByte (fieldsOf w).op with
    | true => exact hused htakes
    | false => rw [hunused htakes, himm htakes]
  rw [encode, hop, hbyte, ← hrsv]
  exact wordOf_fieldsOf w

theorem decode_eq_ok_iff {w : CmdWord} {i : Instr} : decode w = .ok i ↔ encode i = w :=
  ⟨encode_of_decode, fun h => h ▸ decode_encode i⟩

/-- Settles O1: each direction is one of the two round trips. -/
theorem decodeAndEncodeAgree : Obligations.DecodeAndEncodeAgree :=
  fun _ _ => decode_eq_ok_iff

/-! ### The checks of R85 to R87 -/

/-- A listed opcode is in the table (R84, R85). -/
theorem exists_instrOf_of_opListed {f : Fields} (h : f.opListed = true) :
    ∃ i, instrOf f.op f.imm8 = some i :=
  Option.isSome_iff_exists.mp ((instrOf_isSome_eq f).trans h)

/-- Settles O2, check by check in R90's order: the first that fails decides the answer. -/
theorem decodeChecksInOrder : Obligations.DecodeChecksInOrder := by
  intro w
  have hdec := decode_eq w
  simp only [Fields.wellFormed]
  cases hop : (fieldsOf w).opListed with
  | false => simp [hdec, hop]
  | true =>
    obtain ⟨i, hi⟩ := exists_instrOf_of_opListed hop
    cases hrsv : (fieldsOf w).rsvClear with
    | false => simp [hdec, hop, hrsv]
    | true =>
      cases himm : (fieldsOf w).immAllowed with
      | false => simp [hdec, hop, hrsv, himm]
      | true => simp [hdec, hop, hrsv, himm, hi]

theorem exists_decode_eq_ok_iff (w : CmdWord) :
    (∃ i, decode w = .ok i) ↔ (fieldsOf w).wellFormed = true := by
  obtain ⟨-, -, -, hlegal⟩ := decodeChecksInOrder w
  exact hlegal

theorem step_of_decode_error {s : State} {w : CmdWord} {din : Count} {rest : List Input}
    {e : Illegal} (hp : s.port.pending = .command w din :: rest) (hd : decode w = .error e) :
    step s = .next ((s.taken din rest).erred 7) := by
  simp [step, hp, hd, accept_eq, rejectIllegal_eq]

/-- Settles O3: an ill-formed word decodes to no command, and every reason is answered alike. -/
theorem illegalWordsAreRejected : Obligations.IllegalWordsAreRejected := by
  intro s w din rest hp hw
  cases hd : decode w with
  | error e => exact step_of_decode_error hp hd
  | ok i => simp [(exists_decode_eq_ok_iff w).mp ⟨i, hd⟩] at hw

/-! ### Match words and masks (R84) -/

/-- Settles O4: the mask keeps the whole word, so a word matches when it is the encoding. -/
theorem matchWordsOfPlainCommands : Obligations.MatchWordsOfPlainCommands := by
  intro p hp w
  have hencode : encode p.1 = p.2 := by revert p; decide
  have hmask : w &&& 0xFFFFFFFF = w := BitVec.and_allOnes
  rw [decode_eq_ok_iff, hencode, hmask, eq_comm]

/-- The mask 0xFFFFFF00 clears the byte operand and keeps the other fields. -/
theorem wordOf_and_mask (f : Fields) : wordOf f &&& 0xFFFFFF00 = wordOf { f with imm8 := 0 } := by
  have hmask : (0xFFFFFF00 : CmdWord) = BitVec.allOnes 8 ++ BitVec.allOnes 16 ++ 0#8 := by decide
  rw [hmask, wordOf, BitVec.and_append, BitVec.and_append, BitVec.and_allOnes, BitVec.and_allOnes,
    BitVec.and_zero]
  rfl

theorem wordOf_inj {f g : Fields} : wordOf f = wordOf g ↔ f = g :=
  (Function.LeftInverse.injective fieldsOf_wordOf).eq_iff

/-- A word with RSV 0 and the byte operand `b`, by its bits under the mask and its bits 7:0. -/
theorem wordOf_eq_iff (op : BitVec 8) (b : Byte) (w : CmdWord) :
    wordOf ⟨op, 0, b⟩ = w ↔
      w &&& 0xFFFFFF00 = wordOf ⟨op, 0, 0⟩ ∧ b = w.extractLsb' 0 8 := by
  have hb : w.extractLsb' 0 8 = (fieldsOf w).imm8 := rfl
  rw [hb, ← wordOf_fieldsOf w, wordOf_and_mask, wordOf_inj, wordOf_inj, fieldsOf_wordOf]
  obtain ⟨op', rsv', b'⟩ := fieldsOf w
  simp only [Fields.mk.injEq, and_true]
  rw [and_assoc, eq_comm (a := op), eq_comm (a := 0) (b := rsv')]

/-- Settles O5: each command's match word is its encoding with operand 0. -/
theorem matchWordsOfByteCommands : Obligations.MatchWordsOfByteCommands := by
  intro w b
  simp only [decode_eq_ok_iff]
  exact ⟨wordOf_eq_iff 0x11 b w, wordOf_eq_iff 0x17 b w, wordOf_eq_iff 0x33 b w⟩

/-- Settles O6, by running the decoder on the nine words. -/
theorem sampleWordsDecode : Obligations.SampleWordsDecode := by
  unfold Obligations.SampleWordsDecode
  decide

end Sys2Proof.Machine

/-! What a command word does on the port (R80, R88, R221, R222): one response for each word, what
the error log and `dout` then hold, and which commands look at `din`. -/

namespace Sys2Proof.Machine

/-! ### One response -/

/-- `t` has one response more than `s`: OK, with the error log unchanged, or an error's code with
`dout` 0, logged. -/
def OneResponse (s t : State) : Prop :=
  ∃ r : Response, t.port.responses = s.port.responses ++ [r] ∧
    ((r.resp = 0 ∧ t.log = s.log) ∨
      (1 ≤ r.resp.toNat ∧ r.resp.toNat ≤ 9 ∧ r.dout = 0 ∧ t.log.lasterr = r.resp ∧
        ∀ k, t.log.gerr.getLsbD k = (s.log.gerr.getLsbD k || k == r.resp.toNat)))

theorem oneResponse_answered (s : State) (d : Count) : OneResponse s (s.answered 0 d) :=
  ⟨_, s.answered_responses 0 d, .inl ⟨rfl, rfl⟩⟩

theorem oneResponse_erred (s : State) (e : ErrorCode) : OneResponse s (s.erred e.bits) :=
  ⟨_, s.erred_responses e.bits, .inr ⟨e.bits_range.1, e.bits_range.2, rfl, rfl,
    erred_gerr_getLsbD s e⟩⟩

/-- Only the log and the responses matter. -/
theorem OneResponse.of_eq {s u t : State} (h : OneResponse u t) (hlog : u.log = s.log)
    (hresp : u.port.responses = s.port.responses) : OneResponse s t := by
  rwa [OneResponse, hlog, hresp] at h

theorem exec_oneResponse {i : Instr} {s t : State} (h : exec i s = .next t) :
    t.port.pending = s.port.pending ∧ OneResponse s t := by
  obtain ⟨u, d, w, rfl⟩ | ⟨u, e, w, rfl, -⟩ := exec_next h
  · exact ⟨by rw [State.answered_pending, w.port],
      (oneResponse_answered u d).of_eq w.log (by rw [w.port])⟩
  · exact ⟨by rw [State.erred_pending, w.port],
      (oneResponse_erred u e).of_eq w.log (by rw [w.port])⟩

/-- Settles O16: a legal word answers as its command does, an illegal one with ILLEGAL_COMMAND. -/
theorem oneResponsePerCommand : Obligations.OneResponsePerCommand := by
  intro s t w din rest hp h
  cases hd : decode w with
  | ok i =>
    rw [step_of_decode hp hd] at h
    exact exec_oneResponse h
  | error e =>
    rw [step_of_decode_error hp hd] at h
    cases h
    exact ⟨rfl, oneResponse_erred (s.taken din rest) .illegalCommand⟩

/-! ### `din` -/

/-- The state with another word on the port's data line. -/
def State.withDin (s : State) (d : Count) : State := { s with port := { s.port with din := d } }

@[simp] theorem State.withDin_lc (s : State) (d : Count) : (s.withDin d).lc = s.lc := rfl

/-- If `r` answers a next state, `r'` answers that state with `d` on the data line. -/
def AgreeOffDin (d : Count) (r r' : Result) : Prop :=
  ∀ t, r = .next t → r' = .next (t.withDin d)

theorem AgreeOffDin.ite {d : Count} {c : Prop} [Decidable c] {r r' q q' : Result}
    (hr : AgreeOffDin d r r') (hq : AgreeOffDin d q q') :
    AgreeOffDin d (if c then r else q) (if c then r' else q') := by
  split
  · exact hr
  · exact hq

section
variable (s : State) (d : Count)

theorem agreeOffDin_complete (v : Count) :
    AgreeOffDin d (complete v s) (complete v (s.withDin d)) := by
  rintro _ ⟨⟩
  rfl

theorem agreeOffDin_raise (e : ErrorCode) :
    AgreeOffDin d (raise e s) (raise e (s.withDin d)) := by
  rintro _ ⟨⟩
  rfl

theorem execLcDec_agreeOffDin : AgreeOffDin d (execLcDec s) (execLcDec (s.withDin d)) := by
  unfold execLcDec
  refine .ite (agreeOffDin_raise s d _) ?_
  rw [State.withDin_lc]
  cases dec s.lc.ibuf with
  | none => exact agreeOffDin_raise _ d _
  | some v => exact agreeOffDin_complete _ d _

/-- LC.GETC stops, whatever is on the data line, where it stops. -/
theorem execLcGetc_agreeOffDin : AgreeOffDin d (execLcGetc s) (execLcGetc (s.withDin d)) := by
  unfold execLcGetc
  refine .ite (agreeOffDin_raise s d _) (.ite (agreeOffDin_raise s d _) ?_)
  rw [State.withDin_lc]
  cases s.lc.obuf[s.lc.opos]? with
  | none => rintro _ ⟨⟩
  | some b => exact agreeOffDin_complete _ d _

/-- The tests and writes of every command but the four loads are on the units alone. -/
theorem exec_agreeOffDin {i : Instr} (hi : readsDin i = false) :
    AgreeOffDin d (exec i s) (exec i (s.withDin d)) := by
  cases i with
  | srLd0 | srLd1 | lcLd0 | lcLd1 => simp [readsDin] at hi
  | nop | gstat | pcaStat | tblRd | srRdpos | srStat | lcClr | lcStat =>
    exact agreeOffDin_complete _ d _
  | pcaClr | pcaEnd | pcaRd0 | pcaRd1 | srRdlen | lcRd0 | lcRd1 | lcRdlen =>
    exact .ite (agreeOffDin_raise _ d _) (agreeOffDin_complete _ d _)
  | pcaFail | srFail => exact .ite (agreeOffDin_raise _ d _) (agreeOffDin_raise _ d _)
  | pcaPush | srStart | srPull | lcPutc | lcEnc =>
    exact .ite (agreeOffDin_raise _ d _)
      (.ite (agreeOffDin_raise _ d _) (agreeOffDin_complete _ d _))
  | lcDec => exact execLcDec_agreeOffDin s d
  | lcGetc => exact execLcGetc_agreeOffDin s d

end

/-! ### `dout` -/

/-- If `r` answers a next state, its response has `dout` 0; `l` is the responses before. -/
def ReturnsZero (l : List Response) (r : Result) : Prop :=
  ∀ t, r = .next t → ∃ k, t.port.responses = l ++ [⟨k, 0⟩]

theorem returnsZero_complete (s : State) : ReturnsZero s.port.responses (complete 0 s) := by
  rintro _ ⟨⟩
  exact ⟨_, rfl⟩

theorem returnsZero_raise (e : ErrorCode) (s : State) :
    ReturnsZero s.port.responses (raise e s) := by
  rintro _ ⟨⟩
  exact ⟨_, rfl⟩

theorem ReturnsZero.ite {l : List Response} {c : Prop} [Decidable c] {r q : Result}
    (hr : ReturnsZero l r) (hq : ReturnsZero l q) : ReturnsZero l (if c then r else q) := by
  split
  · exact hr
  · exact hq

theorem execLcDec_returnsZero (s : State) : ReturnsZero s.port.responses (execLcDec s) := by
  unfold execLcDec
  refine .ite (returnsZero_raise _ s) ?_
  cases dec s.lc.ibuf with
  | none => exact returnsZero_raise _ _
  | some v => exact returnsZero_complete _

/-- The 15 commands with nothing in R84's "returns" column. -/
theorem exec_returnsZero {i : Instr} (hi : ¬ ReturnsData i) (s : State) :
    ReturnsZero s.port.responses (exec i s) := by
  cases i with
  | gstat | pcaRd0 | pcaRd1 | pcaStat | tblRd | srPull | srRdlen | srRdpos | srStat | lcGetc
  | lcRd0 | lcRd1 | lcRdlen | lcStat =>
    simp [ReturnsData, IsIdempotentRead, idempotentReads] at hi
  | nop | lcClr | lcLd0 | lcLd1 => exact returnsZero_complete _
  | pcaClr | pcaEnd | srLd0 | srLd1 =>
    exact .ite (returnsZero_raise _ _) (returnsZero_complete _)
  | pcaFail | srFail => exact .ite (returnsZero_raise _ _) (returnsZero_raise _ _)
  | pcaPush | srStart | lcPutc | lcEnc =>
    exact .ite (returnsZero_raise _ _) (.ite (returnsZero_raise _ _) (returnsZero_complete _))
  | lcDec => exact execLcDec_returnsZero s

/-- Settles O25: an error's `dout` is 0 by how every error is answered, an OK one by command. -/
theorem dinIsReadOnlyByLoads : Obligations.DinIsReadOnlyByLoads := by
  intro i s t h
  refine ⟨fun hi d => exec_agreeOffDin s d hi t h, fun r hr hzero => ?_⟩
  obtain hi | hresp := hzero
  · obtain ⟨k, hk⟩ := exec_returnsZero hi s t h
    obtain rfl : r = ⟨k, 0⟩ := by simpa [hr] using hk
    rfl
  · obtain ⟨-, r', hr', hcases⟩ := exec_oneResponse h
    obtain rfl : r = r' := by simpa [hr] using hr'
    obtain ⟨hok, -⟩ | ⟨-, -, hdout, -⟩ := hcases
    · exact absurd hok hresp
    · exact hdout

end Sys2Proof.Machine

/-! The inputs a pseudo-instruction or a line of assembly gives (R91, R92) are legal command
words. -/

namespace Sys2Proof.Machine

/-- An input the host issues for a command, with `din` 0 where the command ignores it (R88). -/
def IsIssued (x : Input) : Prop := ∃ i d, x = issue i d ∧ (readsDin i = false → d = 0)

theorem isIssued_zero (i : Instr) : IsIssued (issue i 0) := ⟨i, 0, rfl, fun _ => rfl⟩

/-- What the host issues is the command's own encoding. -/
theorem IsIssued.legal {x : Input} (h : IsIssued x) :
    ∃ w d i, x = .command w d ∧ decode w = .ok i ∧ (readsDin i = false → d = 0) := by
  obtain ⟨i, d, rfl, hd⟩ := h
  exact ⟨encode i, d, i, rfl, decode_encode i, hd⟩

theorem isIssued_of_mem_expandPushs {b : ByteString} : ∀ x ∈ expandPushs b, IsIssued x :=
  List.forall_mem_map.mpr fun _ _ => isIssued_zero _

theorem isIssued_of_mem_expandPuts {b : ByteString} : ∀ x ∈ expandPuts b, IsIssued x :=
  List.forall_mem_map.mpr fun _ _ => isIssued_zero _

theorem isIssued_of_mem_replicate {n : Nat} {i : Instr} :
    ∀ x ∈ List.replicate n (issue i 0), IsIssued x := by
  intro x hx
  rw [List.eq_of_mem_replicate hx]
  exact isIssued_zero i

/-- A command that reads `din`, with any count (R88). -/
theorem isIssued_load {i : Instr} (hi : readsDin i = true) (d : Count) : IsIssued (issue i d) :=
  ⟨i, d, rfl, fun h => by simp [hi] at h⟩

/-- R92's expansions are single commands and commands repeated over a string or a number. -/
theorem isIssued_of_mem_expandPseudo (p : Pseudo) : ∀ x ∈ expandPseudo p, IsIssued x := by
  cases p with
  | pcaPushs b => exact isIssued_of_mem_expandPushs
  | lcPuts b => exact isIssued_of_mem_expandPuts
  | srPulln n | lcGetn n => exact isIssued_of_mem_replicate
  | srStream c0 c1 =>
    simp only [expandPseudo, List.forall_mem_cons]
    exact ⟨isIssued_load rfl c0, isIssued_load rfl c1, isIssued_zero _, List.forall_mem_nil _⟩
  | pcaCount b =>
    simp only [expandPseudo, List.forall_mem_append, List.forall_mem_singleton]
    exact ⟨⟨isIssued_zero _, isIssued_of_mem_expandPushs⟩, isIssued_zero _⟩
  | lcEncode c0 c1 f =>
    simp only [expandPseudo, List.forall_mem_append, List.forall_mem_cons]
    exact ⟨⟨⟨isIssued_zero _, isIssued_load rfl c0, isIssued_load rfl c1,
      List.forall_mem_nil _⟩, isIssued_of_mem_expandPuts⟩, isIssued_zero _, List.forall_mem_nil _⟩
  | lcDecode b =>
    simp only [expandPseudo, List.forall_mem_append, List.forall_mem_singleton]
    exact ⟨⟨isIssued_zero _, isIssued_of_mem_expandPuts⟩, isIssued_zero _⟩

/-- A line's operand goes to `din` for the commands that read it. -/
theorem readsDin_withByte (i : Instr) (b : Byte) :
    readsDin (withByte i b) = (operandKind i == .din) := by
  cases i <;> rfl

theorem isIssued_of_assembleLine {line : ByteString} {x : Input}
    (h : assembleLine line = some x) : IsIssued x := by
  unfold assembleLine at h
  split at h
  · cases h
  · rename_i i _
    split at h
    · cases h
    · rename_i v after _
      split at h
      · cases h
        refine ⟨_, _, rfl, fun hd => if_neg ?_⟩
        rw [readsDin_withByte] at hd
        simpa using hd
      · cases h

/-- Settles O60: a word of the assembler's is the encoding of the command it stands for. -/
theorem assembledWordsAreLegal : Obligations.AssembledWordsAreLegal :=
  ⟨fun p x hx => (isIssued_of_mem_expandPseudo p x hx).legal,
    fun _ _ h => (isIssued_of_assembleLine h).legal⟩

end Sys2Proof.Machine

/-! A whole scan of PCA (R92, R110, R113): PCA.CLR, the bytes pushed one by one, PCA.END. -/

namespace Sys2Proof.Machine

/-! ### One byte, and a list of bytes -/

/-- The PCA registers that PCA.CLR leaves (R114). -/
def Pca.opened : Pca := ⟨.scan, 0, 0, 0⟩

@[simp] theorem Pca.opened_acc1_toNat : Pca.opened.acc1.toNat = 0 := rfl

@[simp] theorem Pca.opened_accb_toNat : Pca.opened.accb.toNat = 0 := rfl

/-- The PCA registers when one more byte is counted (R115). -/
def Pca.push (p : Pca) (b : Byte) : Pca :=
  { p with acc1 := p.acc1 + tblCount b, accb := p.accb + 8 }

/-- The PCA registers when the bytes are counted in order. -/
def Pca.pushes (p : Pca) (bytes : ByteString) : Pca := bytes.foldl Pca.push p

theorem Pca.pushes_cons (p : Pca) (b : Byte) (bs : ByteString) :
    p.pushes (b :: bs) = (p.push b).pushes bs := rfl

/-- Counting writes ACC1 and ACCB alone. -/
theorem Pca.pushes_state (p : Pca) (bytes : ByteString) :
    (p.pushes bytes).pstate = p.pstate ∧ (p.pushes bytes).perr = p.perr := by
  induction bytes generalizing p with
  | nil => exact ⟨rfl, rfl⟩
  | cons b bs ih => exact ih (p.push b)

theorem Pca.push_accb_toNat {p : Pca} (h : p.accb.toNat + 8 < 2 ^ 64) (b : Byte) :
    (p.push b).accb.toNat = p.accb.toNat + 8 := by
  rw [Pca.push, BitVec.toNat_add_of_lt h]
  rfl

theorem Pca.push_acc1_toNat {p : Pca} (h : p.acc1.toNat + 8 < 2 ^ 64) (b : Byte) :
    (p.push b).acc1.toNat = p.acc1.toNat + popcount b := by
  have := popcount_le b
  rw [Pca.push, BitVec.toNat_add_of_lt (by rw [tblCount_toNat]; omega), tblCount_toNat]

theorem Pca.pushes_accb_toNat {p : Pca} {bytes : ByteString}
    (h : p.accb.toNat + 8 * bytes.length < 2 ^ 64) :
    (p.pushes bytes).accb.toNat = p.accb.toNat + 8 * bytes.length := by
  induction bytes generalizing p with
  | nil => rfl
  | cons b bs ih =>
    rw [List.length_cons] at h ⊢
    have hb := p.push_accb_toNat (by omega) b
    rw [Pca.pushes_cons, ih (by omega), hb]
    omega

/-- Each byte has at most eight set bits, so ACC1 does not wrap where 8 per byte does not. -/
theorem Pca.pushes_acc1_toNat {p : Pca} {bytes : ByteString}
    (h : p.acc1.toNat + 8 * bytes.length < 2 ^ 64) :
    (p.pushes bytes).acc1.toNat = p.acc1.toNat + (bytes.map popcount).sum := by
  induction bytes generalizing p with
  | nil => rfl
  | cons b bs ih =>
    have hpop := popcount_le b
    rw [List.length_cons] at h
    have hb := p.push_acc1_toNat (by omega) b
    rw [Pca.pushes_cons, ih (by omega), hb, List.map_cons, List.sum_cons]
    omega

/-! ### The commands of a scan -/

theorem execPcaClr_of_not_scan {s : State} (h : s.pca.pstate ≠ .scan) :
    exec .pcaClr s = .next ((s.withPca Pca.opened).answered 0 0) := by
  simp [exec, execPcaClr, h, complete_eq, Pca.opened]

theorem execPcaPush_of_scan {s : State} (h : s.pca.pstate = .scan)
    (hb : s.pca.accb.toNat + 8 < 2 ^ 64) (b : Byte) :
    exec (.pcaPush b) s = .next ((s.withPca (s.pca.push b)).answered 0 0) := by
  rw [exec, execPcaPush, if_neg (not_not.mpr h), if_neg (by omega)]
  rfl

theorem execPcaEnd_of_scan {s : State} (h : s.pca.pstate = .scan) :
    exec .pcaEnd s = .next ((s.withPca { s.pca with pstate := .done }).answered 0 0) := by
  simp [exec, execPcaEnd, h, complete_eq]

/-- The bytes of PCA.PUSHS, issued on the port in SCAN, are counted one by one, each answering
OK. -/
theorem run_expandPushs {s : State} {bytes : ByteString} {rest : List Input} (n : Nat)
    (hs : s.pca.pstate = .scan) (hb : s.pca.accb.toNat + 8 * bytes.length < 2 ^ 64)
    (hp : s.port.pending = expandPushs bytes ++ rest) :
    ∃ q, core.run (bytes.length + n) s =
        core.run n ((s.withPca (s.pca.pushes bytes)).withPort q) ∧
      q.pending = rest ∧
      q.responses = s.port.responses ++ List.replicate bytes.length ⟨0, 0⟩ := by
  induction bytes generalizing s with
  | nil => exact ⟨s.port, congrArg (core.run · s) n.zero_add, hp, (List.append_nil _).symm⟩
  | cons b bs ih =>
    rw [List.length_cons] at hb
    have hrest : (s.taken 0 (expandPushs bs ++ rest)).pca.pstate = .scan := hs
    have hpush := execPcaPush_of_scan hrest (by simp; omega) b
    have hacc := s.pca.push_accb_toNat (by omega) b
    obtain ⟨q, hrun, hpend, hresp⟩ :=
      ih (s := ((s.taken 0 (expandPushs bs ++ rest)).withPca (s.pca.push b)).answered 0 0)
        hs (by simp [hacc]; omega) rfl
    refine ⟨q, ?_, hpend, ?_⟩
    · rw [List.length_cons, Nat.add_right_comm, run_succ_of_issue _ hp hpush]
      exact hrun
    · simpa [List.replicate_succ] using hresp

/-- A scan of bytes that the counter holds leaves DONE and the counts of the bytes, and every
command of it answers OK. -/
theorem run_pcaCount {s : State} {bytes : ByteString} {rest : List Input}
    (hs : s.pca.pstate ≠ .scan) (hb : 8 * bytes.length < 2 ^ 64)
    (hp : s.port.pending = expandPseudo (.pcaCount bytes) ++ rest) :
    ∃ q, core.run (bytes.length + 2) s = .next
        ((s.withPca { Pca.opened.pushes bytes with pstate := .done }).withPort q) ∧
      q.pending = rest ∧
      q.responses = s.port.responses ++ List.replicate (bytes.length + 2) ⟨0, 0⟩ := by
  have hp' : s.port.pending =
      issue .pcaClr 0 :: (expandPushs bytes ++ (issue .pcaEnd 0 :: rest)) := by
    simpa [expandPseudo] using hp
  have hclr := run_succ_of_issue (bytes.length + 1) hp' (execPcaClr_of_not_scan hs)
  obtain ⟨q, hpush, hpend, hresp⟩ :=
    run_expandPushs (s := ((s.taken 0 _).withPca Pca.opened).answered 0 0)
      (rest := issue .pcaEnd 0 :: rest) 1 rfl (by simpa using hb) rfl
  obtain ⟨hscan, -⟩ := Pca.opened.pushes_state bytes
  have hend := run_succ_of_issue (s := (s.withPca (Pca.opened.pushes bytes)).withPort q) 0 hpend
    (execPcaEnd_of_scan hscan)
  refine ⟨_, hclr.trans (hpush.trans hend), rfl, ?_⟩
  change q.responses ++ [⟨0, 0⟩] = _
  rw [hresp, List.replicate_succ, List.replicate_succ']
  simp

/-- Settles O36: the scan opens with both counts 0, so counting the bytes gives their sums. -/
theorem countingLaw : Obligations.CountingLaw := by
  intro s bytes rest hs hlen hp
  have hb : 8 * bytes.length < 2 ^ 64 := by omega
  obtain ⟨q, hrun, hpend, hresp⟩ := run_pcaCount hs hb hp
  have hacc1 : (Pca.opened.pushes bytes).acc1.toNat = (bytes.map popcount).sum := by
    simpa using Pca.pushes_acc1_toNat (p := Pca.opened) (by simpa using hb)
  have haccb : (Pca.opened.pushes bytes).accb.toNat = 8 * bytes.length := by
    simpa using Pca.pushes_accb_toNat (p := Pca.opened) (by simpa using hb)
  obtain ⟨-, hperr⟩ := Pca.opened.pushes_state bytes
  refine ⟨_, hrun, rfl, hperr, ?_, haccb, hresp, hpend, rfl, rfl, rfl, rfl⟩
  simp only [← popcount_eq_countP]
  exact hacc1

end Sys2Proof.Machine

/-! The rest states of the units, IDLE and READY: no command but LC.CLR enters one (R111, R141,
R171). -/

namespace Sys2Proof.Machine

/-- After command `i`, PCA and SR are in IDLE only if they were before it, and LC is in READY only
if it was or `i` is LC.CLR. -/
structure RestKept (i : Instr) (s t : State) : Prop where
  pca : t.pca.pstate = .idle → s.pca.pstate = .idle
  sr : t.sr.sstate = .idle → s.sr.sstate = .idle
  lc : t.lc.lstate = .ready → s.lc.lstate = .ready ∨ i = .lcClr

/-- If `r` answers a next state, no rest state is entered in it. -/
def KeepsRest (i : Instr) (s : State) (r : Result) : Prop := ∀ t, r = .next t → RestKept i s t

section
variable {i : Instr} {s u : State}

theorem RestKept.refl : RestKept i s s := ⟨id, id, .inl⟩

theorem RestKept.withPca {p : Pca} (h : p.pstate = .idle → s.pca.pstate = .idle) :
    RestKept i s (s.withPca p) := ⟨h, id, .inl⟩

theorem RestKept.withSr {r : Sr} (h : r.sstate = .idle → s.sr.sstate = .idle) :
    RestKept i s (s.withSr r) := ⟨id, h, .inl⟩

theorem RestKept.withLc {l : Lc} (h : l.lstate = .ready → s.lc.lstate = .ready ∨ i = .lcClr) :
    RestKept i s (s.withLc l) := ⟨id, id, h⟩

theorem KeepsRest.of_complete {d : Count} (h : RestKept i s u) : KeepsRest i s (complete d u) := by
  rintro _ ⟨⟩
  exact ⟨h.pca, h.sr, h.lc⟩

theorem KeepsRest.of_raise {e : ErrorCode} (h : RestKept i s u) : KeepsRest i s (raise e u) := by
  rintro _ ⟨⟩
  exact ⟨h.pca, h.sr, h.lc⟩

theorem KeepsRest.ite {c : Prop} [Decidable c] {r q : Result} (hr : KeepsRest i s r)
    (hq : KeepsRest i s q) : KeepsRest i s (if c then r else q) := by
  split
  · exact hr
  · exact hq

/-- Rejected with BAD_STATE where the test fails, and else what the command does. -/
theorem KeepsRest.guarded {c : Prop} [Decidable c] {q : Result} (hq : KeepsRest i s q) :
    KeepsRest i s (if c then raise .badState s else q) :=
  .ite (.of_raise .refl) hq

theorem KeepsRest.of_lcFail {e : ErrorCode} : KeepsRest i s (lcFail e s) :=
  .of_raise (.withLc nofun)

end

/-- SR.START leaves RUN or DONE. -/
theorem Sr.started_sstate_ne_idle (r : Sr) (g : Geometry) : (r.started g).sstate ≠ .idle := by
  unfold Sr.started
  split_ifs <;> nofun

/-- SR.PULL leaves the state it found, or DONE. -/
theorem Sr.advance_sstate_eq_idle {r : Sr} (h : r.advance.sstate = .idle) : r.sstate = .idle := by
  unfold Sr.advance at h
  split_ifs at h
  exact h

theorem execLcDec_keepsRest (s : State) : KeepsRest .lcDec s (execLcDec s) := by
  unfold execLcDec
  refine .guarded ?_
  cases dec s.lc.ibuf with
  | none => exact .of_lcFail
  | some v => exact .of_complete (.withLc nofun)

theorem execLcGetc_keepsRest (s : State) : KeepsRest .lcGetc s (execLcGetc s) := by
  unfold execLcGetc
  refine .guarded (.ite (.of_raise .refl) ?_)
  cases s.lc.obuf[s.lc.opos]? with
  | none => exact nofun
  | some b => exact .of_complete (.withLc .inl)

theorem exec_keepsRest (i : Instr) (s : State) : KeepsRest i s (exec i s) := by
  cases i with
  | nop | gstat | pcaStat | tblRd | srRdpos | srStat | lcStat => exact .of_complete .refl
  | pcaRd0 | pcaRd1 | srRdlen | lcRd0 | lcRd1 | lcRdlen => exact .guarded (.of_complete .refl)
  | pcaClr | pcaEnd => exact .guarded (.of_complete (.withPca nofun))
  | pcaPush =>
    exact .guarded (.ite (.of_raise (.withPca nofun)) (.of_complete (.withPca id)))
  | pcaFail => exact .guarded (.of_raise (.withPca nofun))
  | srLd0 | srLd1 => exact .guarded (.of_complete (.withSr id))
  | srStart =>
    exact .guarded (.ite (.of_raise (.withSr nofun))
      (.of_complete (.withSr fun h => absurd h (Sr.started_sstate_ne_idle _ _))))
  | srPull =>
    exact .ite (.of_raise .refl) (.guarded (.of_complete (.withSr Sr.advance_sstate_eq_idle)))
  | srFail => exact .guarded (.of_raise (.withSr nofun))
  | lcClr => exact .of_complete (.withLc fun _ => .inr rfl)
  | lcLd0 | lcLd1 => exact .of_complete (.withLc .inl)
  | lcPutc => exact .guarded (.ite .of_lcFail (.of_complete (.withLc .inl)))
  | lcEnc => exact .guarded (.ite .of_lcFail (.of_complete (.withLc nofun)))
  | lcDec => exact execLcDec_keepsRest s
  | lcGetc => exact execLcGetc_keepsRest s

/-- Settles O26, command by command. -/
theorem restStatesAreNotReentered : Obligations.RestStatesAreNotReentered := by
  intro i s t h
  obtain ⟨hpca, hsr, hlc⟩ := exec_keepsRest i s t h
  exact ⟨hpca, hsr, hlc⟩

end Sys2Proof.Machine

/-! Rejection with BAD_STATE: the state test of each command (R114 to R120, R142 to R149, R175 to
R185), and which commands it rejects right after reset (R251). -/

namespace Sys2Proof.Machine

/-- The unit states in which a command is rejected with BAD_STATE. -/
def IsBadStateFor (s : State) : Instr → Prop
  | .pcaClr => s.pca.pstate = .scan
  | .pcaPush _ | .pcaEnd | .pcaFail => s.pca.pstate ≠ .scan
  | .pcaRd0 | .pcaRd1 => s.pca.pstate ≠ .done
  | .srLd0 | .srLd1 | .srStart => s.sr.sstate = .run
  | .srPull | .srRdlen => s.sr.sstate = .idle ∨ s.sr.sstate = .failed
  | .srFail => s.sr.sstate ≠ .run
  | .lcPutc _ | .lcEnc | .lcDec => s.lc.lstate ≠ .ready
  | .lcGetc | .lcRdlen => s.lc.lstate ≠ .out
  | .lcRd0 | .lcRd1 => s.lc.dvalid = false
  | .nop | .gstat | .pcaStat | .tblRd _ | .srRdpos | .srStat | .lcClr | .lcLd0 | .lcLd1
  | .lcStat => False

/-- SR.PULL alone tests for another state first, DONE (R147). -/
theorem exec_of_isBadStateFor {s : State} {i : Instr} (h : IsBadStateFor s i) :
    exec i s = .next (s.erred 6) := by
  cases i with
  | nop | gstat | pcaStat | tblRd | srRdpos | srStat | lcClr | lcLd0 | lcLd1 | lcStat =>
    exact h.elim
  | srPull =>
    have hdone : s.sr.sstate ≠ .done := by
      obtain h | h := h <;> rw [h] <;> nofun
    exact (if_neg hdone).trans (if_pos h)
  | pcaClr | pcaPush | pcaEnd | pcaFail | pcaRd0 | pcaRd1 | srLd0 | srLd1 | srStart | srFail
  | srRdlen | lcPutc | lcEnc | lcDec | lcGetc | lcRd0 | lcRd1 | lcRdlen => exact if_pos h

/-- Every register holds its reset value (R51), with anything on the port. -/
def State.resetOn (c : Config) (p : Port) : State := (State.resetWith c).withPort p

section
variable (p : Port)

/-- The byte fits, as the empty buffer holds at least 64. -/
theorem execLcPutc_resetOn {c : Config} (hc : 64 ≤ c.lcBufBytes) (b : Byte) :
    execLcPutc b (State.resetOn c p) =
      complete 0 ((State.resetOn c p).withLc { Lc.reset with ibuf := [b] }) := by
  have hcap : (0 : Nat) ≠ c.lcBufBytes := by omega
  exact (if_neg (not_not.mpr rfl)).trans (if_neg hcap)

/-- With both counts 0 and no filename the path is "/0/0/". -/
theorem execLcEnc_resetOn {c : Config} (hc : 64 ≤ c.lcBufBytes) :
    execLcEnc (State.resetOn c p) = complete 0 ((State.resetOn c p).withLc
      { Lc.reset with obuf := enc 0 0 [], lstate := .out }) := by
  have hlen : (enc 0 0 []).length = 5 := by decide
  have hcap : ¬ (enc 0 0 []).length > c.lcBufBytes := by omega
  exact (if_neg (not_not.mpr rfl)).trans (if_neg hcap)

end

/-- Settles O11, command by command: the rejected ones by their state test, the others by running
them. -/
theorem commandsAfterReset : Obligations.CommandsAfterReset := by
  rintro _ hc i s hlog hpca hsr hlc rfl
  obtain ⟨c, log, pca, sr, lc, p⟩ := s
  subst hlog hpca hsr hlc
  cases i with
  | pcaRd0 | pcaRd1 | lcGetc | lcRdlen =>
    rw [if_pos (by simp)]
    exact exec_of_isBadStateFor fun h => nomatch h
  | srPull | srRdlen =>
    rw [if_pos (by simp)]
    exact exec_of_isBadStateFor (.inl rfl)
  | lcRd0 | lcRd1 =>
    rw [if_pos (by simp)]
    exact exec_of_isBadStateFor rfl
  | nop | gstat | pcaStat | tblRd | srStat | lcStat | srLd0 | srLd1 | lcLd0 | lcLd1 | pcaClr
  | srStart | lcClr =>
    rw [if_neg (by simp), if_pos (by simp)]
    exact ⟨_, _, rfl, rfl, nofun⟩
  | srRdpos =>
    rw [if_neg (by simp), if_pos (by simp)]
    exact ⟨_, _, rfl, rfl, fun _ => rfl⟩
  | lcPutc b =>
    rw [if_neg (by simp), if_pos (by simp)]
    exact ⟨_, _, execLcPutc_resetOn p hc b, rfl, nofun⟩
  | lcEnc =>
    rw [if_neg (by simp), if_pos (by simp)]
    exact ⟨_, _, execLcEnc_resetOn p hc, rfl, nofun⟩
  | lcDec =>
    rw [if_neg (by simp), if_neg (by simp), if_pos rfl]
    exact ⟨_, rfl, rfl⟩
  | pcaPush | pcaEnd | pcaFail | srFail =>
    rw [if_neg (by simp), if_neg (by simp), if_neg nofun]
    exact exec_of_isBadStateFor fun h => nomatch h

end Sys2Proof.Machine

/-! The status words of the units (R43 to R45), field by field, and the commands that read them
(R121, R151, R186). -/

namespace Sys2Proof.Machine

/-- A widened word has zeros above its own bits. -/
theorem extractLsb'_setWidth_of_width_le {n start : Nat} (x : BitVec n) (m len : Nat)
    (h : n ≤ start) : (x.setWidth m).extractLsb' start len = 0 := by
  ext k hk
  simp [BitVec.getLsbD_of_ge x (start + k) (by omega)]

theorem pcaStatus_fields (p : Pca) :
    (pcaStatus p).extractLsb' 0 2 = p.pstate.bits ∧ (pcaStatus p).extractLsb' 2 2 = 0 ∧
    (pcaStatus p).extractLsb' 4 4 = p.perr ∧ (pcaStatus p).extractLsb' 8 56 = 0 := by
  refine ⟨?_, ?_, ?_, extractLsb'_setWidth_of_width_le _ 64 56 (by decide)⟩ <;>
    simp (disch := decide) only [pcaStatus, BitVec.extractLsb'_setWidth_of_le,
      BitVec.extractLsb'_append_eq_of_add_le, BitVec.extractLsb'_append_eq_of_le,
      BitVec.extractLsb'_eq_self, Nat.reduceSub]
  rfl

theorem srStatus_fields (r : Sr) :
    (srStatus r).extractLsb' 0 2 = r.sstate.bits ∧ (srStatus r).getLsbD 2 = r.bnd ∧
    (srStatus r).getLsbD 3 = false ∧ (srStatus r).extractLsb' 4 4 = r.serr ∧
    (srStatus r).extractLsb' 8 3 = r.e0 ∧ (srStatus r).getLsbD 11 = false ∧
    (srStatus r).extractLsb' 12 3 = r.e1 ∧ (srStatus r).extractLsb' 15 49 = 0 := by
  refine ⟨?_, ?_, ?_, ?_, ?_, ?_, ?_, extractLsb'_setWidth_of_width_le _ 64 49 (by decide)⟩
  all_goals
    simp (disch := decide) only [srStatus, BitVec.extractLsb'_setWidth_of_le,
      BitVec.extractLsb'_append_eq_of_add_le, BitVec.extractLsb'_append_eq_of_le,
      BitVec.extractLsb'_eq_self, BitVec.getLsbD_setWidth, BitVec.getLsbD_append, Nat.reduceSub]
  · simp
  · simp
  · simp

theorem lcStatus_fields (l : Lc) :
    (lcStatus l).extractLsb' 0 2 = l.lstate.bits ∧ (lcStatus l).getLsbD 2 = l.dvalid ∧
    (lcStatus l).getLsbD 3 = false ∧ (lcStatus l).extractLsb' 4 4 = l.lerr ∧
    (lcStatus l).extractLsb' 8 56 = 0 := by
  refine ⟨?_, ?_, ?_, ?_, extractLsb'_setWidth_of_width_le _ 64 56 (by decide)⟩
  all_goals
    simp (disch := decide) only [lcStatus, BitVec.extractLsb'_setWidth_of_le,
      BitVec.extractLsb'_append_eq_of_add_le, BitVec.extractLsb'_append_eq_of_le,
      BitVec.extractLsb'_eq_self, BitVec.getLsbD_setWidth, BitVec.getLsbD_append, Nat.reduceSub]
  · simp
  · simp

/-- Settles O30: the words are encodings, and the fields are those of the status words. -/
theorem unitStatusWords : Obligations.UnitStatusWords := by
  refine ⟨decode_encode .pcaStat, decode_encode .srStat, decode_encode .lcStat, fun s => ?_⟩
  obtain ⟨hpstate, hpca⟩ := pcaStatus_fields s.pca
  obtain ⟨hsstate, hsr⟩ := srStatus_fields s.sr
  obtain ⟨hlstate, hlc⟩ := lcStatus_fields s.lc
  refine ⟨⟨_, rfl, ?_, hpca⟩, ⟨_, rfl, ?_, hsr⟩, ⟨_, rfl, ?_, hlc⟩⟩
  · rw [hpstate]
    cases s.pca.pstate <;> rfl
  · rw [hsstate]
    cases s.sr.sstate <;> rfl
  · rw [hlstate]
    cases s.lc.lstate <;> rfl

end Sys2Proof.Machine

/-! The commands of PCA and TBL one by one (R112 to R120). -/

namespace Sys2Proof.Machine

/-! ### Words with a byte operand (R83) -/

/-- A word with RSV 0 is its match word with the byte operand in bits 7:0. -/
theorem wordOf_eq_or (op : BitVec 8) (b : Byte) :
    wordOf ⟨op, 0, b⟩ = wordOf ⟨op, 0, 0⟩ ||| b.setWidth 32 := by
  have hb : b.setWidth 32 = 0#8 ++ 0#16 ++ b := by
    apply BitVec.eq_of_toNat_eq
    rw [BitVec.toNat_setWidth_of_le (by decide), BitVec.toNat_append, BitVec.toNat_append]
    simp
  rw [hb, wordOf, wordOf, BitVec.or_append, BitVec.or_append]
  simp

/-- The match word of a command, `w`, with its operand put in decodes to the command. -/
theorem decode_or_byteOperand (i : Instr) {w : CmdWord} (hw : wordOf ⟨opcode i, 0, 0⟩ = w) :
    decode (w ||| (byteOperand i).setWidth 32) = .ok i := by
  rw [← hw, ← wordOf_eq_or]
  exact decode_encode i

/-! ### Each command -/

/-- Settles O31: TBL's entry, widened, is the number of set bits. -/
theorem tblRdReadsTable : Obligations.TblRdReadsTable :=
  have hword : wordOf ⟨0x17, 0, 0⟩ = 0x17000000 := by decide
  ⟨fun b => decode_or_byteOperand (.tblRd b) hword,
    fun _ b => ⟨tblCount b, rfl, (tblCount_toNat b).trans (popcount_eq_countP b)⟩⟩

/-- Settles O32: SCAN is the state PCA.CLR rejects. -/
theorem pcaClrOpensScan : Obligations.PcaClrOpensScan :=
  ⟨decode_encode .pcaClr, fun _ => ⟨(exec_of_isBadStateFor ·), execPcaClr_of_not_scan⟩⟩

theorem execPcaPush_of_overflow {s : State} (h : s.pca.pstate = .scan)
    (hb : s.pca.accb.toNat > 2 ^ 64 - 9) (b : Byte) :
    exec (.pcaPush b) s = .next ((s.withPca (Pca.failWith .overflow)).erred 5) := by
  rw [exec, execPcaPush, if_neg (not_not.mpr h), if_pos (by omega)]
  rfl

/-- Settles O33: below the bound the counts are those of `Pca.push`, and neither sum wraps. -/
theorem pcaPushAccumulates : Obligations.PcaPushAccumulates := by
  have hword : wordOf ⟨0x11, 0, 0⟩ = 0x11000000 := by decide
  refine ⟨fun b => decode_or_byteOperand (.pcaPush b) hword, fun s b =>
    ⟨(exec_of_isBadStateFor ·), fun h hb => execPcaPush_of_overflow h hb b, fun h hb => ?_⟩⟩
  have haccb : s.pca.accb.toNat + 8 < 2 ^ 64 := by omega
  refine ⟨_, _, execPcaPush_of_scan h haccb b, Pca.push_accb_toNat haccb b, fun hle => ?_⟩
  rw [← popcount_eq_countP]
  exact Pca.push_acc1_toNat (by omega) b

theorem execPcaFail_of_scan {s : State} (h : s.pca.pstate = .scan) :
    exec .pcaFail s = .next ((s.withPca (Pca.failWith .readFailure)).erred 1) := by
  rw [exec, execPcaFail, if_neg (not_not.mpr h)]
  rfl

/-- Settles O34: every state but SCAN is one that both commands reject. -/
theorem pcaEndAndFailCloseScan : Obligations.PcaEndAndFailCloseScan :=
  ⟨decode_encode .pcaEnd, decode_encode .pcaFail, fun _ =>
    ⟨fun h => ⟨execPcaEnd_of_scan h, execPcaFail_of_scan h⟩,
      fun h => ⟨exec_of_isBadStateFor h, exec_of_isBadStateFor h⟩⟩⟩

theorem execPcaRd0_of_done {s : State} (h : s.pca.pstate = .done) :
    exec .pcaRd0 s = .next (s.answered 0 (s.pca.accb - s.pca.acc1)) := by
  rw [exec, execPcaRd0, if_neg (not_not.mpr h), complete_eq]

theorem execPcaRd1_of_done {s : State} (h : s.pca.pstate = .done) :
    exec .pcaRd1 s = .next (s.answered 0 s.pca.acc1) := by
  rw [exec, execPcaRd1, if_neg (not_not.mpr h), complete_eq]

/-- Settles O35: the difference of the counts does not wrap where ACC1 is at most ACCB. -/
theorem pcaReadsCounts : Obligations.PcaReadsCounts :=
  ⟨decode_encode .pcaRd0, decode_encode .pcaRd1, fun _ =>
    ⟨fun h => ⟨execPcaRd1_of_done h, _, execPcaRd0_of_done h, fun hle =>
        BitVec.toNat_sub_of_le (BitVec.le_def.mpr hle)⟩,
      fun h => ⟨exec_of_isBadStateFor h, exec_of_isBadStateFor h⟩⟩⟩

end Sys2Proof.Machine

/-! The commands of SR one by one (R142 to R150), and the examples of the Trust policy (R154). -/

namespace Sys2Proof.Machine

section
variable {s : State}

/-! ### SR.LD0, SR.LD1, SR.FAIL, SR.RDLEN and SR.RDPOS -/

theorem execSrLd0_of_not_run (h : s.sr.sstate ≠ .run) :
    exec .srLd0 s = .next ((s.withSr { s.sr with c0 := s.port.din }).answered 0 0) :=
  if_neg h

theorem execSrLd1_of_not_run (h : s.sr.sstate ≠ .run) :
    exec .srLd1 s = .next ((s.withSr { s.sr with c1 := s.port.din }).answered 0 0) :=
  if_neg h

theorem execSrFail_of_run (h : s.sr.sstate = .run) :
    exec .srFail s = .next ((s.withSr { s.sr with sstate := .failed, serr := 2 }).erred 2) :=
  if_neg (not_not.mpr h)

theorem execSrRdlen_of_run_or_done (h : s.sr.sstate = .run ∨ s.sr.sstate = .done) :
    exec .srRdlen s = .next (s.answered 0 s.sr.len) := by
  refine if_neg ?_
  obtain h | h := h <;> simp [h]

end

/-- Settles O37: RUN is the state both loads reject. -/
theorem srLoadsCounts : Obligations.SrLoadsCounts :=
  ⟨decode_encode .srLd0, decode_encode .srLd1, fun _ =>
    ⟨fun h => ⟨exec_of_isBadStateFor h, exec_of_isBadStateFor h⟩,
      fun h => ⟨execSrLd0_of_not_run h, execSrLd1_of_not_run h⟩⟩⟩

/-- Settles O41: every state but RUN is one that SR.FAIL rejects. -/
theorem srFailAbortsStream : Obligations.SrFailAbortsStream :=
  ⟨decode_encode .srFail, fun _ => ⟨execSrFail_of_run, (exec_of_isBadStateFor ·)⟩⟩

/-- Settles O42: SR.RDPOS has no state test, and IDLE and FAILED are the states SR.RDLEN rejects. -/
theorem srReadsLengthAndPosition : Obligations.SrReadsLengthAndPosition :=
  ⟨decode_encode .srRdlen, decode_encode .srRdpos, fun s =>
    ⟨complete_eq s.sr.pos s, execSrRdlen_of_run_or_done, (exec_of_isBadStateFor ·)⟩⟩

/-! ### SR.START -/

/-- SR.START rejects the counts: their exact sum is no multiple of 8, under the policy Reject. -/
def State.RejectsCounts (s : State) : Prop :=
  (s.sr.c0.toNat + s.sr.c1.toNat) % 8 ≠ 0 ∧ s.cfg.srUnalignedPolicy = .reject

theorem State.rejectsCounts_iff (s : State) : s.RejectsCounts ↔
    aligned s.sr.c0 s.sr.c1 = false ∧ s.cfg.srUnalignedPolicy = .reject := by
  rw [State.RejectsCounts, ne_eq, ← aligned_iff, Bool.not_eq_true]

/-- The counts that SR.START takes are aligned, or trusted. -/
theorem State.not_rejectsCounts {s : State} (h : (s.sr.c0.toNat + s.sr.c1.toNat) % 8 = 0 ∨
    s.cfg.srUnalignedPolicy = .trust) : ¬ s.RejectsCounts := by
  rintro ⟨hunaligned, hreject⟩
  obtain h | h := h
  · exact hunaligned h
  · rw [h] at hreject; cases hreject

theorem execSrStart_of_rejectsCounts {s : State} (hs : s.sr.sstate ≠ .run)
    (h : s.RejectsCounts) :
    exec .srStart s = .next ((s.withSr s.sr.rejectCounts).erred 4) := by
  rw [exec, execSrStart, if_neg hs, if_pos (s.rejectsCounts_iff.mp h)]
  rfl

theorem execSrStart_of_not_rejectsCounts {s : State} (hs : s.sr.sstate ≠ .run)
    (h : ¬ s.RejectsCounts) : exec .srStart s =
      .next ((s.withSr (s.sr.started (geometry s.sr.c0 s.sr.c1))).answered 0 0) := by
  rw [exec, execSrStart, if_neg hs, if_neg (mt s.rejectsCounts_iff.mpr h)]
  rfl

/-- Settles O38: the registers of a new stream are its geometry, whose numbers are those of R145. -/
theorem srStartFixesGeometry : Obligations.SrStartFixesGeometry := by
  refine ⟨decode_encode .srStart, fun s => ⟨(exec_of_isBadStateFor ·),
    fun hs ha hp => execSrStart_of_rejectsCounts hs ⟨ha, hp⟩, fun hs h => ?_⟩⟩
  exact ⟨s.sr.started (geometry s.sr.c0 s.sr.c1),
    execSrStart_of_not_rejectsCounts hs (State.not_rejectsCounts h), rfl, rfl, rfl, rfl,
    geometry_z_toNat s.sr.c0 s.sr.c1, geometry_e0_toNat s.sr.c0 s.sr.c1,
    geometry_e1_toNat s.sr.c0 s.sr.c1, geometry_bnd s.sr.c0 s.sr.c1,
    geometry_o_toNat s.sr.c0 s.sr.c1, (s.sr.inv_started s.sr.c0 s.sr.c1).len_eq, rfl⟩

/-- Settles O45: each pair of counts opens a stream of the boundary byte alone. -/
theorem trustPolicyExamples : Obligations.TrustPolicyExamples := by
  intro s hs hp p hmem h0 h1
  refine ⟨_, execSrStart_of_not_rejectsCounts hs (State.not_rejectsCounts (.inr hp)), ?_⟩
  rw [h0, h1]
  simp only [List.mem_cons, List.not_mem_nil, or_false] at hmem
  obtain rfl | rfl | rfl := hmem
  · exact ⟨rfl, rfl, rfl⟩
  · exact ⟨rfl, rfl, rfl⟩
  · exact ⟨rfl, rfl, rfl⟩

/-! ### SR.PULL -/

theorem execSrPull_of_done {s : State} (h : s.sr.sstate = .done) :
    exec .srPull s = .next (s.erred 8) :=
  if_pos h

/-- In an open stream POS moves on by one, into DONE at LEN. -/
theorem Sr.advance_of_run {r : Sr} (h : r.sstate = .run) :
    r.advance =
      { r with pos := r.pos + 1, sstate := if r.pos + 1 = r.len then .done else .run } := by
  rw [Sr.advance, h]

theorem byteDout_toNat (b : Byte) : (byteDout b).toNat = b.toNat :=
  BitVec.toNat_setWidth_of_le (by decide)

/-- The boundary byte is `8 - E0` ones in its low bits (R146). -/
theorem boundaryByte_toNat (e : BitVec 3) : (boundaryByte e).toNat = 2 ^ (8 - e.toNat) - 1 := by
  revert e; decide

theorem byteAt_toNat (r : Sr) (p : Count) :
    (byteAt r p).toNat =
      if p.toNat < r.z.toNat then 0
      else if r.bnd = true ∧ p = r.z then 2 ^ (8 - r.e0.toNat) - 1
      else 255 := by
  rw [byteAt, ← boundaryByte_toNat]
  simp only [Bool.and_eq_true, beq_iff_eq, apply_ite BitVec.toNat]
  rfl

/-- Settles O40: in RUN, POS is below LEN and so does not wrap. -/
theorem srPullEmitsNextByte : Obligations.SrPullEmitsNextByte := by
  refine ⟨decode_encode .srPull, fun s => ⟨execSrPull_of_done, (exec_of_isBadStateFor ·),
    fun hrun hlt => ⟨byteDout (byteAt s.sr s.sr.pos), s.sr.pos + 1, ?_, ?_, ?_⟩⟩⟩
  · rw [execSrPull_of_run hrun, Sr.advance_of_run hrun]
    rfl
  · have hlen : s.sr.len.toNat < 2 ^ 64 := s.sr.len.isLt
    exact BitVec.toNat_add_of_lt (by simp; omega)
  · rw [byteDout_toNat, byteAt_toNat]

end Sys2Proof.Machine


/-! In a FAILED unit an error writes no unit, so the first fatal cause is kept (R230); SR.START
alone can fail its unit again (R141). -/

namespace Sys2Proof.Machine

/-- If `res` answers with an error, the registers of every unit are those of `s`. -/
def KeepsUnitsOnError (s : State) (res : Result) : Prop :=
  ∀ t r, res = .next t → t.port.responses = s.port.responses ++ [r] → r.resp ≠ 0 →
    t.pca = s.pca ∧ t.sr = s.sr ∧ t.lc = s.lc

section
variable {s : State}

/-- A command that completes answers no error. -/
theorem KeepsUnitsOnError.of_complete {u : State} {d : Count} (hport : u.port = s.port) :
    KeepsUnitsOnError s (complete d u) := by
  rintro _ r ⟨⟩ hr hne
  change u.port.responses ++ [⟨0, d⟩] = _ at hr
  rw [hport] at hr
  cases List.append_cancel_left hr
  exact absurd rfl hne

theorem KeepsUnitsOnError.of_erred {k : BitVec 4} : KeepsUnitsOnError s (.next (s.erred k)) := by
  rintro _ r ⟨⟩ - -
  exact ⟨rfl, rfl, rfl⟩

/-- Rejected with BAD_STATE where the test fails, and else what the command does. -/
theorem KeepsUnitsOnError.guarded {c : Prop} [Decidable c] {q : Result}
    (hq : KeepsUnitsOnError s q) : KeepsUnitsOnError s (if c then raise .badState s else q) := by
  split
  · exact .of_erred
  · exact hq

theorem KeepsUnitsOnError.of_isBadStateFor {i : Instr} (h : IsBadStateFor s i) :
    KeepsUnitsOnError s (exec i s) := by
  rw [exec_of_isBadStateFor h]
  exact .of_erred

/-- The unit `n` is FAILED. -/
def State.IsFailed (s : State) : UnitName → Prop
  | .system => False
  | .pca => s.pca.pstate = .failed
  | .sr => s.sr.sstate = .failed
  | .lc => s.lc.lstate = .failed

/-- The commands that could fail their unit are rejected where it is FAILED, except SR.START. -/
theorem exec_keepsUnitsOnError {i : Instr} (h : s.IsFailed (unitName i)) (hi : i ≠ .srStart) :
    KeepsUnitsOnError s (exec i s) := by
  cases i with
  | srStart => exact absurd rfl hi
  | nop | gstat | pcaStat | tblRd | srRdpos | srStat | lcClr | lcLd0 | lcLd1 | lcStat =>
    exact .of_complete rfl
  | pcaClr | pcaEnd | pcaRd0 | pcaRd1 | srLd0 | srLd1 | srRdlen | lcRd0 | lcRd1 | lcRdlen =>
    exact .guarded (.of_complete rfl)
  | pcaPush | pcaFail =>
    have hf : s.pca.pstate = .failed := h
    exact .of_isBadStateFor (by simp [IsBadStateFor, hf])
  | srPull => exact .of_isBadStateFor (.inr h)
  | srFail =>
    have hf : s.sr.sstate = .failed := h
    exact .of_isBadStateFor (by simp [IsBadStateFor, hf])
  | lcPutc | lcEnc | lcDec | lcGetc =>
    have hf : s.lc.lstate = .failed := h
    exact .of_isBadStateFor (by simp [IsBadStateFor, hf])

/-- Outside RUN the one error of SR.START is UNALIGNED_COUNTS, the new cause. -/
theorem execSrStart_error {t : State} {r : Response} (hs : s.sr.sstate ≠ .run)
    (h : exec .srStart s = .next t) (hr : t.port.responses = s.port.responses ++ [r])
    (hne : r.resp ≠ 0) : r.resp = 4 ∧ t.sr.serr = 4 := by
  by_cases hc : s.RejectsCounts
  · rw [execSrStart_of_rejectsCounts hs hc] at h
    cases h
    cases List.append_cancel_left hr
    exact ⟨rfl, rfl⟩
  · rw [execSrStart_of_not_rejectsCounts hs hc] at h
    cases h
    cases List.append_cancel_left hr
    exact absurd rfl hne

end

/-- Settles O23: a command of another unit writes nothing here (R72), and one of the FAILED unit
only completes or is rejected. -/
theorem firstFatalCauseIsKept : Obligations.FirstFatalCauseIsKept := by
  intro i s t r h hr hne
  obtain ⟨hpca, hsr, hlc⟩ := unitsAreIndependent i s t h
  have hkept (hf : s.IsFailed (unitName i)) (hi : i ≠ .srStart) :=
    exec_keepsUnitsOnError hf hi t r h hr hne
  refine ⟨fun hf => ?_, fun hf => ?_, fun hf => ?_⟩
  · by_cases hu : unitName i = .pca
    · obtain ⟨hkeep, -, -⟩ := hkept (by rwa [hu]) (by rintro rfl; cases hu)
      exact hkeep
    · exact hpca hu
  · split_ifs with hi
    · subst hi
      exact execSrStart_error (by rw [hf]; nofun) h hr hne
    · by_cases hu : unitName i = .sr
      · obtain ⟨-, hkeep, -⟩ := hkept (by rwa [hu]) hi
        exact hkeep
      · exact hsr hu
  · by_cases hu : unitName i = .lc
    · obtain ⟨-, -, hkeep⟩ := hkept (by rwa [hu]) (by rintro rfl; cases hu)
      exact hkeep
    · exact hlc hu

end Sys2Proof.Machine


/-! The stream as a byte string (R145, R146): whole zero bytes, at most one boundary byte, whole one
bytes; and which byte strings are the stream of their own counts (R156). -/

namespace Sys2Proof.Machine

/-- Settles O39: remainders below 8 whose sum is a multiple of 8. -/
theorem alignedGeometry : Obligations.AlignedGeometry := by
  intro c0 c1 h
  refine ⟨?_, ?_, geometry_len_of_aligned h⟩
  · rw [geometry_e0_toNat, geometry_e1_toNat]; omega
  · rw [geometry_bnd, decide_eq_true_iff, geometry_e0_toNat, geometry_e1_toNat]; omega

/-! ### The bytes of a stream -/

/-- A map over a range is constant where each place has the same image. -/
theorem map_range_eq_replicate {f : Nat → Byte} {n : Nat} {b : Byte} (h : ∀ k < n, f k = b) :
    (List.range n).map f = List.replicate n b :=
  List.eq_replicate_iff.mpr ⟨by simp, by simpa using h⟩

/-- The bytes at the positions of a geometry with `n` whole one bytes. -/
theorem map_byteAt_range (r : Sr) {n : Nat} (h : r.z.toNat + r.bnd.toNat + n < 2 ^ 64) :
    (List.range (r.z.toNat + r.bnd.toNat + n)).map (fun p => byteAt r (BitVec.ofNat 64 p)) =
      List.replicate r.z.toNat 0x00 ++ (if r.bnd then [boundaryByte r.e0] else []) ++
        List.replicate n 0xFF := by
  have hpos {p : Nat} (hp : p < r.z.toNat + r.bnd.toNat + n) : (BitVec.ofNat 64 p).toNat = p := by
    rw [BitVec.toNat_ofNat, Nat.mod_eq_of_lt (hp.trans h)]
  rw [List.range_add, List.range_add, List.map_append, List.map_append, List.map_map, List.map_map]
  congr 2
  · exact map_range_eq_replicate fun p hp => byteAt_zero _ _ (by rw [hpos (by omega)]; exact hp)
  · cases hb : r.bnd with
    | false => rfl
    | true => simp [byteAt_boundary r r.z hb rfl]
  · refine map_range_eq_replicate fun p hp => ?_
    have hp' := hpos (Nat.add_lt_add_left hp _)
    refine byteAt_ones _ _ (by rw [hp']; omega) ?_
    rw [hp']
    cases r.bnd with
    | false => exact .inl rfl
    | true => exact .inr (by rw [Bool.toNat_true]; omega)

/-- The bytes of the stream for counts `n0` and `n1`, in order: the boundary byte stands where there
are remainders. -/
def streamBytes (n0 n1 : Nat) : ByteString :=
  List.replicate (n0 / 8) 0x00 ++ (if 0 < n0 % 8 + n1 % 8 then [0xFF#8 >>> (n0 % 8)] else []) ++
    List.replicate (n1 / 8) 0xFF

theorem map_byteAt_geometry (r : Sr) (c0 c1 : Count) :
    (List.range (geometry c0 c1).len.toNat).map
        (fun p => byteAt (r.withGeometry (geometry c0 c1)) (BitVec.ofNat 64 p)) =
      streamBytes c0.toNat c1.toNat := by
  have hlen := geometry_len_toNat c0 c1
  have hlt : (geometry c0 c1).len.toNat < 2 ^ 64 := (geometry c0 c1).len.isLt
  have hmap := map_byteAt_range (r.withGeometry (geometry c0 c1)) (n := c1.toNat / 8)
  simp only [Sr.withGeometry, geometry_z_toNat, ← hlen, boundaryByte, geometry_e0_toNat] at hmap
  rw [Sr.withGeometry, hmap hlt, geometry_bnd, streamBytes]
  simp only [decide_eq_true_eq]

/-! ### The fixed points -/

/-- Whole bytes on both sides leave no boundary byte. -/
theorem streamBytes_whole (a b : Nat) :
    streamBytes (8 * a) (8 * b) = List.replicate a 0x00 ++ [] ++ List.replicate b 0xFF := by
  simp [streamBytes]

/-- Remainders `k` and `8 - k` share one boundary byte. -/
theorem streamBytes_shared {k : Nat} (h1 : 1 ≤ k) (h7 : k ≤ 7) (a b : Nat) :
    streamBytes (8 * a + k) (8 * b + (8 - k)) =
      List.replicate a 0x00 ++ [0xFF#8 >>> k] ++ List.replicate b 0xFF := by
  rw [streamBytes, if_pos (by omega), show (8 * a + k) / 8 = a by omega,
    show (8 * a + k) % 8 = k by omega, show (8 * b + (8 - k)) / 8 = b by omega]

/-- A string of zero bytes, then `m`, then one bytes has the ones of `m` and of the one bytes. -/
theorem sum_popcount_shape (a b : Nat) (m : ByteString) :
    ((List.replicate a 0x00 ++ m ++ List.replicate b 0xFF).map popcount).sum =
      (m.map popcount).sum + 8 * b := by
  have h0 : popcount 0#8 = 0 := by decide
  have h1 : popcount 0xFF#8 = 8 := by decide
  simp [h0, h1, Nat.mul_comm]

theorem popcount_ushiftRight_ones {k : Nat} (h : k ≤ 7) : popcount (0xFF#8 >>> k) = 8 - k := by
  interval_cases k <;> decide

theorem sum_popcount_le (x : ByteString) : (x.map popcount).sum ≤ 8 * x.length := by
  have := List.sum_le_card_nsmul (x.map popcount) 8 (by simp [popcount_le])
  simpa [Nat.mul_comm] using this

/-- R156's shape: zero bytes, at most one byte of `k` zeros and `8 - k` ones, one bytes. -/
def HasStreamShape (x : ByteString) : Prop :=
  ∃ (a b : Nat) (m : ByteString),
    x = List.replicate a 0x00 ++ m ++ List.replicate b 0xFF ∧
    (m = [] ∨ ∃ k, 1 ≤ k ∧ k ≤ 7 ∧ m = [0xFF#8 >>> k])

/-- For aligned counts the boundary byte has a zero and a one. -/
theorem hasStreamShape_streamBytes {n0 n1 : Nat} (h : (n0 + n1) % 8 = 0) :
    HasStreamShape (streamBytes n0 n1) := by
  refine ⟨_, _, _, rfl, ?_⟩
  split
  · exact .inr ⟨n0 % 8, by omega, by omega, rfl⟩
  · exact .inl rfl

/-- A string of the shape is the stream of its own counts. -/
theorem HasStreamShape.streamBytes_eq {x : ByteString} (h : HasStreamShape x) :
    streamBytes (8 * x.length - (x.map popcount).sum) (x.map popcount).sum = x := by
  obtain ⟨a, b, m, rfl, rfl | ⟨k, h1, h7, rfl⟩⟩ := h
  · rw [sum_popcount_shape]
    convert streamBytes_whole a b using 2
    · simp; omega
    · simp
  · rw [sum_popcount_shape]
    convert streamBytes_shared h1 h7 a b using 2
    · simp [popcount_ushiftRight_ones h7]; omega
    · simp [popcount_ushiftRight_ones h7]; omega

/-- Settles O46: the stream of any aligned counts has the shape, and the shape fixes the stream. -/
theorem reconstructionFixedPoints : Obligations.ReconstructionFixedPoints := by
  intro x r c0 c1 _ h1 h0
  rw [map_byteAt_geometry]
  change _ ↔ HasStreamShape x
  constructor
  · intro h
    have hle := sum_popcount_le x
    rw [← h]
    exact hasStreamShape_streamBytes (by omega)
  · intro h
    rw [h0, h1, h.streamBytes_eq]

end Sys2Proof.Machine

/-! Reading a locator (R178 to R180): the value of a hex string as an unbounded number, and the
paths that decode. -/

namespace Sys2Proof.Machine

/-! ### Hex strings (R180) -/

/-- A hex digit of either case, by its character code (R14). -/
def IsHexDigit (c : Byte) : Prop :=
  (0x30 ≤ c.toNat ∧ c.toNat ≤ 0x39) ∨ (0x41 ≤ c.toNat ∧ c.toNat ≤ 0x46) ∨
    (0x61 ≤ c.toNat ∧ c.toNat ≤ 0x66)

/-- The value of a hex digit of either case (R14). -/
def hexDigitValue (c : Byte) : Nat :=
  if c.toNat ≤ 0x39 then c.toNat - 0x30
  else if c.toNat ≤ 0x46 then c.toNat - 0x41 + 10 else c.toNat - 0x61 + 10

/-- The unbounded number that the digits `x` give when they follow a number `v`. -/
def hexNumberFrom (v : Nat) (x : ByteString) : Nat :=
  x.foldl (fun n c => 16 * n + hexDigitValue c) v

theorem hexNumberFrom_cons (v : Nat) (c : Byte) (cs : ByteString) :
    hexNumberFrom v (c :: cs) = hexNumberFrom (16 * v + hexDigitValue c) cs := rfl

/-- More digits never make the number smaller. -/
theorem le_hexNumberFrom (v : Nat) (x : ByteString) : v ≤ hexNumberFrom v x := by
  induction x generalizing v with
  | nil => exact le_rfl
  | cons c cs ih =>
    rw [hexNumberFrom_cons]
    have := ih (16 * v + hexDigitValue c)
    omega

theorem hexdigit_of_isHexDigit {c : Byte} (h : IsHexDigit c) :
    hexdigit c = some (hexDigitValue c) := by
  unfold hexdigit hexDigitValue
  obtain h | h | h := h
  · rw [if_pos h, if_pos h.2]
  · rw [if_neg (by omega), if_pos h, if_neg (by omega), if_pos h.2]
  · rw [if_neg (by omega), if_neg (by omega), if_pos h, if_neg (by omega), if_neg (by omega)]

theorem hexdigit_eq_none_iff {c : Byte} : hexdigit c = none ↔ ¬ IsHexDigit c := by
  refine ⟨fun h hc => ?_, fun h => ?_⟩
  · rw [hexdigit_of_isHexDigit hc] at h
    cases h
  · simp only [IsHexDigit, not_or] at h
    obtain ⟨hdecimal, hupper, hlower⟩ := h
    rw [hexdigit, if_neg hdecimal, if_neg hupper, if_neg hlower]

theorem hexvalFrom_cons_of_not_isHexDigit (v : Nat) {c : Byte} (h : ¬ IsHexDigit c)
    (cs : ByteString) : hexvalFrom v (c :: cs) = none := by
  rw [hexvalFrom, hexdigit_eq_none_iff.mpr h]

theorem hexvalFrom_cons_of_isHexDigit (v : Nat) {c : Byte} (h : IsHexDigit c) (cs : ByteString) :
    hexvalFrom v (c :: cs) = if 16 * v + hexDigitValue c > 2 ^ 64 - 1 then none
      else hexvalFrom (16 * v + hexDigitValue c) cs := by
  rw [hexvalFrom, hexdigit_of_isHexDigit h]

/-- The loop tests the bound at every digit; as the numbers only grow, it is one test of the last. -/
theorem hexvalFrom_eq_some_iff {v n : Nat} {x : ByteString} (hv : v < 2 ^ 64) :
    hexvalFrom v x = some n ↔
      (∀ c ∈ x, IsHexDigit c) ∧ hexNumberFrom v x = n ∧ n < 2 ^ 64 := by
  induction x generalizing v with
  | nil =>
    simp only [hexvalFrom, hexNumberFrom, List.foldl_nil, Option.some.injEq]
    exact ⟨fun h => ⟨nofun, h, h ▸ hv⟩, fun h => h.2.1⟩
  | cons c cs ih =>
    rw [hexNumberFrom_cons, List.forall_mem_cons]
    by_cases hc : IsHexDigit c
    · rw [hexvalFrom_cons_of_isHexDigit v hc]
      split
      · have := le_hexNumberFrom (16 * v + hexDigitValue c) cs
        simp only [reduceCtorEq, false_iff]
        omega
      · rw [ih (by omega)]
        simp [hc]
    · simp [hexvalFrom_cons_of_not_isHexDigit v hc, hc]

theorem hexval_of_ne_nil {x : ByteString} (h : x ≠ []) :
    hexval x = (hexvalFrom 0 x).map (BitVec.ofNat 64) := by
  cases x with
  | nil => exact absurd rfl h
  | cons c cs => rfl

theorem hexval_eq_some_iff {x : ByteString} {v : Count} :
    hexval x = some v ↔
      x ≠ [] ∧ (∀ c ∈ x, IsHexDigit c) ∧ hexNumberFrom 0 x = v.toNat := by
  rcases eq_or_ne x [] with rfl | hx
  · simp [hexval]
  rw [hexval_of_ne_nil hx, Option.map_eq_some_iff]
  simp only [hexvalFrom_eq_some_iff (Nat.two_pow_pos 64)]
  constructor
  · rintro ⟨n, ⟨hdigits, hvalue, hn⟩, rfl⟩
    exact ⟨hx, hdigits, by rw [hvalue, BitVec.toNat_ofNat, Nat.mod_eq_of_lt hn]⟩
  · rintro ⟨-, hdigits, hvalue⟩
    exact ⟨v.toNat, ⟨hdigits, hvalue, v.isLt⟩, by simp⟩

/-- Settles O55: the loop's number is the fold of the statement. -/
theorem hexvalParsesExactly : Obligations.HexvalParsesExactly :=
  fun _ _ => hexval_eq_some_iff

/-- A byte that is no hex digit, anywhere in the string. -/
theorem hexval_eq_none {x : ByteString} {c : Byte} (hc : c ∈ x) (h : hexdigit c = none) :
    hexval x = none := by
  refine Option.eq_none_iff_forall_ne_some.mpr fun v hv => ?_
  obtain ⟨-, hdigits, -⟩ := hexval_eq_some_iff.mp hv
  exact hexdigit_eq_none_iff.mp h (hdigits c hc)

/-! ### What `hex` writes reads back (R14, R180) -/

theorem isHexDigit_hexchar {d : Nat} (h : d < 16) : IsHexDigit (hexchar d) :=
  (hexchar_isLowerHex h).imp_right .inr

theorem hexDigitValue_hexchar {d : Nat} (h : d < 16) : hexDigitValue (hexchar d) = d :=
  Option.some.inj ((hexdigit_of_isHexDigit (isHexDigit_hexchar h)).symm.trans
    (hexdigit_hexchar d h))

/-- On written digits the value in either case is the lower-case value. -/
theorem hexNumberFrom_hex (v : Count) : hexNumberFrom 0 (hex v) = v.toNat := by
  refine Eq.trans ?_ (lowerHexNumber_hexDigits (n := 16) v.isLt)
  refine List.foldl_ext _ _ _ fun n c hc => ?_
  obtain ⟨d, hd, rfl⟩ := mem_hexDigits _ _ c hc
  rw [hexDigitValue_hexchar hd, lowerHexValue_hexchar hd]

theorem hexval_hex (v : Count) : hexval (hex v) = some v := by
  refine hexval_eq_some_iff.mpr ⟨?_, fun c hc => ?_, hexNumberFrom_hex v⟩
  · exact List.ne_nil_of_length_pos (hexDigits_length_pos _ _)
  · obtain ⟨d, hd, rfl⟩ := mem_hexDigits _ _ c hc
    exact isHexDigit_hexchar hd

theorem slash_notMem_hex (v : Count) : slash ∉ hex v := by
  intro h
  obtain ⟨d, hd, he⟩ := mem_hexDigits _ _ _ h
  exact hexchar_ne_slash d hd he.symm

/-! ### Paths (R178, R179) -/

/-- The segments after a first one that a '/' ends. -/
theorem splitSlash_append_eq {a r : ByteString} {l : List ByteString} (ha : slash ∉ a)
    (h : splitSlash r = l) : splitSlash (a ++ slash :: r) = a :: l :=
  h ▸ splitSlash_append a r ha

theorem segments_eq_some_iff {p : ByteString} {l : List ByteString} :
    segments p = some l ↔ ∃ r, p = slash :: r ∧ splitSlash r = l := by
  cases p with
  | nil => simp [segments]
  | cons c r => simp [segments]

/-- `dec` succeeds on three segments of which the first two have values. -/
theorem dec_eq_some_iff {p f : ByteString} {v0 v1 : Count} :
    dec p = some (v0, v1, f) ↔
      ∃ a b, segments p = some [a, b, f] ∧ hexval a = some v0 ∧ hexval b = some v1 := by
  constructor
  · intro h
    unfold dec at h
    split at h
    · rename_i a b _ hseg
      split at h
      · rename_i ha hb
        cases h
        exact ⟨a, b, hseg, ha, hb⟩
      · cases h
    · cases h
  · rintro ⟨a, b, hseg, ha, hb⟩
    simp only [dec, hseg, ha, hb]

/-- A path that does not have three segments. -/
theorem dec_eq_none_of_length {p : ByteString} {l : List ByteString} (h : segments p = some l)
    (hl : l.length ≠ 3) : dec p = none := by
  refine Option.eq_none_iff_forall_ne_some.mpr fun ⟨v0, v1, f⟩ hd => ?_
  obtain ⟨a, b, hseg, -⟩ := dec_eq_some_iff.mp hd
  cases h.symm.trans hseg
  exact hl rfl

/-- A path whose first segment has no value. -/
theorem dec_eq_none_of_hexval {p a : ByteString} {l : List ByteString}
    (h : segments p = some (a :: l)) (ha : hexval a = none) : dec p = none := by
  refine Option.eq_none_iff_forall_ne_some.mpr fun ⟨v0, v1, f⟩ hd => ?_
  obtain ⟨a', b, hseg, ha', -⟩ := dec_eq_some_iff.mp hd
  cases h.symm.trans hseg
  cases ha.symm.trans ha'

theorem segments_eq_three {p a b f : ByteString} :
    segments p = some [a, b, f] ↔
      p = slash :: (a ++ slash :: (b ++ slash :: f)) ∧ slash ∉ a ∧ slash ∉ b ∧ slash ∉ f := by
  simp [segments_eq_some_iff, splitSlash_eq_three]

/-- Settles O56: the three segments are the text between the separators. -/
theorem decodeAcceptsThreeSegments : Obligations.DecodeAcceptsThreeSegments := by
  intro p f v0 v1
  simp only [dec_eq_some_iff, segments_eq_three, and_assoc]
  rfl

/-! ### The encoded locator (R176) -/

theorem enc_eq (c0 c1 : Count) (f : ByteString) :
    enc c0 c1 f = slash :: (hex c0 ++ slash :: (hex c1 ++ slash :: f)) := by
  simp [enc]

theorem enc_length (c0 c1 : Count) (f : ByteString) :
    (enc c0 c1 f).length = 3 + (hex c0).length + (hex c1).length + f.length := by
  simp only [enc_eq, List.length_cons, List.length_append]
  omega

/-- The written counts hold no '/', so they are whole segments. -/
theorem segments_enc (c0 c1 : Count) (f : ByteString) :
    segments (enc c0 c1 f) = some (hex c0 :: hex c1 :: splitSlash f) := by
  refine segments_eq_some_iff.mpr ⟨_, enc_eq c0 c1 f, ?_⟩
  exact splitSlash_append_eq (slash_notMem_hex c0) (splitSlash_append_eq (slash_notMem_hex c1) rfl)

theorem dec_enc (c0 c1 : Count) {f : ByteString} (h : slash ∉ f) :
    dec (enc c0 c1 f) = some (c0, c1, f) := by
  refine dec_eq_some_iff.mpr ⟨hex c0, hex c1, ?_, hexval_hex c0, hexval_hex c1⟩
  rw [segments_enc, splitSlash_of_notMem f h]

/-- A text with a '/' has at least two segments. -/
theorem splitSlash_length_ne_one {x : ByteString} (h : slash ∈ x) :
    (splitSlash x).length ≠ 1 := by
  intro hl
  obtain ⟨y, hy⟩ := List.length_eq_one_iff.mp hl
  have hxy : x = y := by simpa [hy] using (intercalate_splitSlash x).symm
  exact notMem_of_mem_splitSlash x y (by simp [hy]) (hxy ▸ h)

theorem dec_enc_of_slash_mem (c0 c1 : Count) {f : ByteString} (h : slash ∈ f) :
    dec (enc c0 c1 f) = none := by
  refine dec_eq_none_of_length (segments_enc c0 c1 f) ?_
  have := splitSlash_length_ne_one h
  simpa using this

end Sys2Proof.Machine

/-! The commands of LC one by one (R172 to R185), and the round trip and the rejections of R187 and
R188 through them. -/

namespace Sys2Proof.Machine

/-! ### LC.CLR, LC.LD0, LC.LD1, LC.PUTC, LC.GETC and the reads -/

/-- Settles O47: LC.CLR has no state test. -/
theorem lcClrClears : Obligations.LcClrClears :=
  ⟨decode_encode .lcClr, fun s => complete_eq 0 (s.withLc s.lc.cleared)⟩

/-- Settles O48: the loads have no state test. -/
theorem lcLoadsCounts : Obligations.LcLoadsCounts :=
  ⟨decode_encode .lcLd0, decode_encode .lcLd1, fun s =>
    ⟨complete_eq 0 (s.withLc { s.lc with ec0 := s.port.din }),
      complete_eq 0 (s.withLc { s.lc with ec1 := s.port.din })⟩⟩

section
variable {s : State}

theorem execLcPutc_of_full (hs : s.lc.lstate = .ready)
    (hl : s.lc.ibuf.length = s.cfg.lcBufBytes) (b : Byte) :
    exec (.lcPutc b) s = .next ((s.withLc (s.lc.failWith .bufferFull)).erred 9) :=
  (if_neg (not_not.mpr hs)).trans ((if_pos hl).trans (lcFail_eq .bufferFull s))

theorem execLcPutc_of_not_full (hs : s.lc.lstate = .ready)
    (hl : s.lc.ibuf.length ≠ s.cfg.lcBufBytes) (b : Byte) :
    exec (.lcPutc b) s =
      .next ((s.withLc { s.lc with ibuf := s.lc.ibuf ++ [b] }).answered 0 0) :=
  (if_neg (not_not.mpr hs)).trans (if_neg hl)

theorem execLcGetc_of_end (hs : s.lc.lstate = .out) (ho : s.lc.opos = s.lc.obuf.length) :
    exec .lcGetc s = .next (s.erred 8) :=
  (if_neg (not_not.mpr hs)).trans ((if_pos ho).trans (raise_eq .endOfStream s))

theorem execLcRd0_of_dvalid (h : s.lc.dvalid = true) :
    exec .lcRd0 s = .next (s.answered 0 s.lc.dc0) :=
  if_neg (by simp [h])

theorem execLcRd1_of_dvalid (h : s.lc.dvalid = true) :
    exec .lcRd1 s = .next (s.answered 0 s.lc.dc1) :=
  if_neg (by simp [h])

theorem execLcRdlen_of_out (h : s.lc.lstate = .out) :
    exec .lcRdlen s = .next (s.answered 0 (lengthDout s.lc.obuf.length)) :=
  if_neg (not_not.mpr h)

end

/-- Settles O49: READY is the state LC.PUTC needs, and a full buffer fails the unit. -/
theorem lcPutcAppends : Obligations.LcPutcAppends := by
  have hword : wordOf ⟨0x33, 0, 0⟩ = 0x33000000 := by decide
  exact ⟨fun b => decode_or_byteOperand (.lcPutc b) hword, fun s b =>
    ⟨(exec_of_isBadStateFor ·), fun hs hl => execLcPutc_of_full hs hl b,
      fun hs hl => execLcPutc_of_not_full hs hl b⟩⟩

/-- Settles O52: below the end of OBUF the byte at OPOS exists. -/
theorem lcGetcReadsNextByte : Obligations.LcGetcReadsNextByte :=
  ⟨decode_encode .lcGetc, fun _ => ⟨(exec_of_isBadStateFor ·), execLcGetc_of_end,
    fun hlt hs => execLcGetc_of_getElem? hs (List.getElem?_eq_getElem hlt)⟩⟩

theorem lengthDout_toNat {n : Nat} (h : n < 2 ^ 64) : (lengthDout n).toNat = n := by
  rw [lengthDout, if_pos h, BitVec.toNat_ofNat, Nat.mod_eq_of_lt h]

/-- Settles O53: each read has one test, and a length of 64 bits is returned exactly. -/
theorem lcReadsResults : Obligations.LcReadsResults :=
  ⟨decode_encode .lcRd0, decode_encode .lcRd1, decode_encode .lcRdlen, fun _ =>
    ⟨fun h => ⟨execLcRd0_of_dvalid h, execLcRd1_of_dvalid h⟩,
      fun h => ⟨exec_of_isBadStateFor h, exec_of_isBadStateFor h⟩,
      fun h => ⟨_, execLcRdlen_of_out h, lengthDout_toNat⟩, (exec_of_isBadStateFor ·)⟩⟩

/-! ### LC.ENC and LC.DEC -/

section
variable {s : State}

theorem execLcEnc_of_too_long (hs : s.lc.lstate = .ready)
    (hl : (enc s.lc.ec0 s.lc.ec1 s.lc.ibuf).length > s.cfg.lcBufBytes) :
    exec .lcEnc s = .next ((s.withLc (s.lc.failWith .bufferFull)).erred 9) :=
  (if_neg (not_not.mpr hs)).trans ((if_pos hl).trans (lcFail_eq .bufferFull s))

theorem execLcEnc_of_fits (hs : s.lc.lstate = .ready)
    (hl : (enc s.lc.ec0 s.lc.ec1 s.lc.ibuf).length ≤ s.cfg.lcBufBytes) :
    exec .lcEnc s = .next ((s.withLc { s.lc with
      lstate := .out, obuf := enc s.lc.ec0 s.lc.ec1 s.lc.ibuf, opos := 0,
      dvalid := false }).answered 0 0) :=
  (if_neg (not_not.mpr hs)).trans (if_neg (not_lt.mpr hl))

theorem execLcDec_of_none (hs : s.lc.lstate = .ready) (hd : dec s.lc.ibuf = none) :
    exec .lcDec s = .next ((s.withLc (s.lc.failWith .invalidLocator)).erred 3) := by
  rw [exec, execLcDec, if_neg (not_not.mpr hs), hd]
  exact lcFail_eq .invalidLocator s

theorem execLcDec_of_some {v0 v1 : Count} {f : ByteString} (hs : s.lc.lstate = .ready)
    (hd : dec s.lc.ibuf = some (v0, v1, f)) :
    exec .lcDec s = .next ((s.withLc { s.lc with
      lstate := .out, dc0 := v0, dc1 := v1, dvalid := true, obuf := f,
      opos := 0 }).answered 0 0) := by
  rw [exec, execLcDec, if_neg (not_not.mpr hs), hd]
  rfl

end

/-- Each count is written with at most 16 digits. -/
theorem enc_length_le (c0 c1 : Count) (f : ByteString) :
    (enc c0 c1 f).length ≤ 35 + f.length := by
  have h0 : (hex c0).length ≤ 16 := hexDigits_length_le 16 _
  have h1 : (hex c1).length ≤ 16 := hexDigits_length_le 16 _
  rw [enc_length]
  omega

/-- Settles O50: the string of the statement is `enc`. -/
theorem lcEncEncodes : Obligations.LcEncEncodes := by
  refine ⟨decode_encode .lcEnc, fun s => ?_⟩
  intro e
  have he : enc s.lc.ec0 s.lc.ec1 s.lc.ibuf = e := enc_eq _ _ _
  rw [← he]
  refine ⟨enc_length _ _ _, fun hcap hlong => ?_, (exec_of_isBadStateFor ·),
    execLcEnc_of_too_long, execLcEnc_of_fits⟩
  have := enc_length_le s.lc.ec0 s.lc.ec1 s.lc.ibuf
  omega

/-- Settles O51: the two answers of `dec`. -/
theorem lcDecDecodes : Obligations.LcDecDecodes :=
  ⟨decode_encode .lcDec, fun _ => ⟨(exec_of_isBadStateFor ·), execLcDec_of_none,
    fun _ _ _ hs hd => ⟨dec_length_lt hd, execLcDec_of_some hs hd⟩⟩⟩

/-- Settles O57: `dec` inverts `enc` on a filename without '/', and fails on one with a '/'. -/
theorem locatorRoundTrip : Obligations.LocatorRoundTrip := by
  intro s hs hfit
  rw [← enc_length] at hfit
  refine ⟨_, execLcEnc_of_fits hs hfit, rfl, fun u hu hbuf => ⟨fun hf => ?_, fun hf => ?_⟩⟩
  · have hd : dec u.lc.ibuf = some (s.lc.ec0, s.lc.ec1, s.lc.ibuf) := by
      rw [hbuf]; exact dec_enc _ _ hf
    exact ⟨_, execLcDec_of_some hu hd, rfl, rfl, rfl, rfl, rfl⟩
  · have hd : dec u.lc.ibuf = none := by
      rw [hbuf]; exact dec_enc_of_slash_mem _ _ hf
    exact ⟨_, execLcDec_of_none hu hd, rfl, rfl, rfl, rfl⟩

/-- Settles O58: a path of two or four segments does not have three, and a first segment that is not
hex has no value; LC.DEC then fails the unit. -/
theorem namedRejections : Obligations.NamedRejections := by
  intro s a b f g ha hb hf hg hs h
  suffices hd : dec s.lc.ibuf = none from ⟨_, execLcDec_of_none hs hd, rfl, rfl, rfl⟩
  obtain h | h | ⟨⟨c, hc, hdigit⟩, h | ⟨r, h⟩⟩ := h
  · have hsplit := splitSlash_append_eq ha (splitSlash_of_notMem b hb)
    exact dec_eq_none_of_length (segments_eq_some_iff.mpr ⟨_, h, hsplit⟩) (by simp)
  · have hsplit := splitSlash_append_eq ha <| splitSlash_append_eq hb <|
      splitSlash_append_eq hf (splitSlash_of_notMem g hg)
    exact dec_eq_none_of_length (segments_eq_some_iff.mpr ⟨_, h, hsplit⟩) (by simp)
  · have hsplit := splitSlash_of_notMem a ha
    exact dec_eq_none_of_hexval (segments_eq_some_iff.mpr ⟨_, h, hsplit⟩)
      (hexval_eq_none hc hdigit)
  · have hsplit := splitSlash_append a r ha
    exact dec_eq_none_of_hexval (segments_eq_some_iff.mpr ⟨_, h, hsplit⟩)
      (hexval_eq_none hc hdigit)

end Sys2Proof.Machine

/-! The system commands (R210, R211): NOP, and GSTAT with the global status word (R46) field by
field. -/

namespace Sys2Proof.Machine

/-- Settles O28: NOP completes on the state as it is; word 1 is NOP with its unused byte set. -/
theorem nopDoesNothing : Obligations.NopDoesNothing :=
  ⟨decode_encode .nop, ⟨.unusedByte, by decide⟩, complete_eq 0⟩

theorem globalStatus_fields (g : ErrorLog) :
    (globalStatus g).extractLsb' 0 16 = g.gerr ∧ (globalStatus g).extractLsb' 16 4 = g.lasterr ∧
    (globalStatus g).extractLsb' 20 44 = 0 := by
  refine ⟨?_, ?_, extractLsb'_setWidth_of_width_le _ 64 44 (by decide)⟩ <;>
    simp (disch := decide) only [globalStatus, BitVec.extractLsb'_setWidth_of_le,
      BitVec.extractLsb'_append_eq_of_add_le, BitVec.extractLsb'_append_eq_of_le,
      BitVec.extractLsb'_eq_self, Nat.reduceSub]

/-- Settles O29: the answer is the global status word, on the state as it is. -/
theorem gstatReadsLog : Obligations.GstatReadsLog :=
  ⟨decode_encode .gstat, fun s =>
    ⟨globalStatus s.log, complete_eq (globalStatus s.log) s, globalStatus_fields s.log⟩⟩

end Sys2Proof.Machine

/-! The step with nothing pending (R237). -/

namespace Sys2Proof.Machine

/-- Settles O8: the port is the first thing a step looks at. -/
theorem idleCoreHoldsState : Obligations.IdleCoreHoldsState := by
  intro s h
  rw [step, h]

end Sys2Proof.Machine

/-! How an exception ends (R221 to R224): the response code alone says what an error writes. A
rejection writes no unit, a fatal code fails its unit, and only the start commands leave FAILED. -/

namespace Sys2Proof.Machine

/-! ### What an error writes -/

/-- R223, R224: the state with what error code `k` writes to the units, before it is logged. -/
def State.afterError (s : State) (k : BitVec 4) : State :=
  match k.toNat with
  | 1 | 5 => s.withPca ⟨.failed, k, 0, 0⟩
  | 2 => s.withSr { s.sr with sstate := .failed, serr := 2 }
  | 3 | 9 => s.withLc { s.lc with
      lstate := .failed, lerr := k, ibuf := [], obuf := [], opos := 0, dc0 := 0, dc1 := 0,
      dvalid := false }
  | 4 => s.withSr { s.sr with
      sstate := .failed, serr := 4, z := 0, e0 := 0, e1 := 0, bnd := false, o := 0, len := 0,
      pos := 0 }
  | _ => s

@[simp] theorem State.afterError_port (s : State) (k : BitVec 4) :
    (s.afterError k).port = s.port := by
  unfold State.afterError
  split <;> rfl

/-- If `res` answers with an error, the code of it says what was written. -/
def ErrsByCode (s : State) (res : Result) : Prop :=
  ∀ t r, res = .next t → t.port.responses = s.port.responses ++ [r] → r.resp ≠ 0 →
    t = (s.afterError r.resp).erred r.resp

section
variable {s : State}

/-- A command that completes answers no error. -/
theorem ErrsByCode.of_complete {u : State} {d : Count} (hport : u.port = s.port) :
    ErrsByCode s (complete d u) := by
  rintro _ r ⟨⟩ hr hne
  change u.port.responses ++ [⟨0, d⟩] = _ at hr
  rw [hport] at hr
  cases List.append_cancel_left hr
  exact absurd rfl hne

theorem ErrsByCode.of_raise {u : State} {e : ErrorCode} (h : u = s.afterError e.bits) :
    ErrsByCode s (raise e u) := by
  rw [raise_eq, h]
  rintro _ r ⟨⟩ hr -
  rw [State.erred_responses, State.afterError_port] at hr
  cases List.append_cancel_left hr
  rfl

theorem ErrsByCode.ite {c : Prop} [Decidable c] {r q : Result} (hr : ErrsByCode s r)
    (hq : ErrsByCode s q) : ErrsByCode s (if c then r else q) := by
  split
  · exact hr
  · exact hq

/-- Rejected with BAD_STATE where the test fails, and else what the command does. -/
theorem ErrsByCode.guarded {c : Prop} [Decidable c] {q : Result} (hq : ErrsByCode s q) :
    ErrsByCode s (if c then raise .badState s else q) :=
  .ite (.of_raise rfl) hq

theorem execLcDec_errsByCode (s : State) : ErrsByCode s (execLcDec s) := by
  unfold execLcDec
  refine .guarded ?_
  cases dec s.lc.ibuf with
  | none => exact .of_raise rfl
  | some v => exact .of_complete rfl

theorem execLcGetc_errsByCode (s : State) : ErrsByCode s (execLcGetc s) := by
  unfold execLcGetc
  refine .guarded (.ite (.of_raise rfl) ?_)
  cases s.lc.obuf[s.lc.opos]? with
  | none => rintro _ _ ⟨⟩
  | some b => exact .of_complete rfl

theorem exec_errsByCode (i : Instr) (s : State) : ErrsByCode s (exec i s) := by
  cases i with
  | nop | gstat | pcaStat | tblRd | srRdpos | srStat | lcClr | lcLd0 | lcLd1 | lcStat =>
    exact .of_complete rfl
  | pcaClr | pcaEnd | pcaRd0 | pcaRd1 | srLd0 | srLd1 | srRdlen | lcRd0 | lcRd1 | lcRdlen =>
    exact .guarded (.of_complete rfl)
  | pcaPush | srStart | lcPutc | lcEnc =>
    exact .guarded (.ite (.of_raise rfl) (.of_complete rfl))
  | pcaFail | srFail => exact .guarded (.of_raise rfl)
  | srPull => exact .ite (.of_raise rfl) (.guarded (.of_complete rfl))
  | lcDec => exact execLcDec_errsByCode s
  | lcGetc => exact execLcGetc_errsByCode s

/-- The state after a command word, legal or not, that is answered with an error. -/
theorem step_eq_of_error {t : State} {w : CmdWord} {din : Count} {rest : List Input} {r : Response}
    (hp : s.port.pending = .command w din :: rest) (h : step s = .next t)
    (hr : t.port.responses = s.port.responses ++ [r]) (hne : r.resp ≠ 0) :
    t = ((s.taken din rest).afterError r.resp).erred r.resp := by
  cases hd : decode w with
  | ok i =>
    rw [step_of_decode hp hd] at h
    exact exec_errsByCode i _ t r h hr hne
  | error e =>
    rw [step_of_decode_error hp hd] at h
    cases h
    cases List.append_cancel_left hr
    rfl

end

/-- Settles O21: the codes 6, 7 and 8 write nothing. -/
theorem rejectionsChangeNoUnit : Obligations.RejectionsChangeNoUnit := by
  intro s t w din rest r hp h hr hrej
  obtain ⟨k, d⟩ := r
  have ht (hne : k ≠ 0) : t = ((s.taken din rest).afterError k).erred k :=
    step_eq_of_error hp h hr hne
  obtain rfl | rfl | rfl := hrej <;> obtain rfl := ht (by decide) <;> exact ⟨rfl, rfl, rfl⟩

/-! ### The ways out of FAILED -/

/-- The command that takes a unit out of FAILED (R111, R141, R171). -/
def startCommand : UnitName → Option Instr
  | .system => none
  | .pca => some .pcaClr
  | .sr => some .srStart
  | .lc => some .lcClr

/-- Only the registers of the unit itself matter. -/
theorem State.IsFailed.of_unit_eq {n : UnitName} {s t : State} (hf : s.IsFailed n)
    (hpca : n = .pca → t.pca = s.pca) (hsr : n = .sr → t.sr = s.sr)
    (hlc : n = .lc → t.lc = s.lc) : t.IsFailed n := by
  cases n with
  | system => exact hf
  | pca => exact (congrArg Pca.pstate (hpca rfl)).trans hf
  | sr => exact (congrArg Sr.sstate (hsr rfl)).trans hf
  | lc => exact (congrArg Lc.lstate (hlc rfl)).trans hf

/-- Where its unit is FAILED, a command that is no start command loads a count, is a read, or is
rejected. -/
theorem exec_isFailed_own {i : Instr} {s t : State} (hf : s.IsFailed (unitName i))
    (hi : some i ≠ startCommand (unitName i)) (h : exec i s = .next t) :
    t.IsFailed (unitName i) := by
  have hread (hr : IsIdempotentRead i) : t.IsFailed (unitName i) := by
    obtain ⟨hpca, hsr, hlc, -⟩ := readsChangeNothing i s t hr h
    exact hf.of_unit_eq (fun _ => hpca) (fun _ => hsr) (fun _ => hlc)
  have hbad (hb : IsBadStateFor s i) : t.IsFailed (unitName i) := by
    rw [exec_of_isBadStateFor hb] at h
    cases h
    exact hf.of_unit_eq (fun _ => rfl) (fun _ => rfl) (fun _ => rfl)
  cases i with
  | nop | gstat => exact hf.elim
  | pcaClr | srStart | lcClr => exact absurd rfl hi
  | pcaRd0 | pcaRd1 | pcaStat | srRdlen | srRdpos | srStat | lcRd0 | lcRd1 | lcRdlen | lcStat =>
    exact hread (.inl (by decide))
  | tblRd b => exact hread (.inr ⟨b, rfl⟩)
  | pcaPush | pcaEnd | pcaFail =>
    have hs : s.pca.pstate = .failed := hf
    exact hbad (by simp [IsBadStateFor, hs])
  | srPull => exact hbad (.inr hf)
  | srFail =>
    have hs : s.sr.sstate = .failed := hf
    exact hbad (by simp [IsBadStateFor, hs])
  | lcPutc | lcEnc | lcDec | lcGetc =>
    have hs : s.lc.lstate = .failed := hf
    exact hbad (by simp [IsBadStateFor, hs])
  | srLd0 =>
    have hs : s.sr.sstate = .failed := hf
    rw [execSrLd0_of_not_run (by rw [hs]; nofun)] at h
    cases h
    exact hf
  | srLd1 =>
    have hs : s.sr.sstate = .failed := hf
    rw [execSrLd1_of_not_run (by rw [hs]; nofun)] at h
    cases h
    exact hf
  | lcLd0 | lcLd1 =>
    cases h
    exact hf

/-- A command of another unit writes nothing here (R72). -/
theorem exec_isFailed {i : Instr} {s t : State} {n : UnitName} (h : exec i s = .next t)
    (hf : s.IsFailed n) : t.IsFailed n ∨ some i = startCommand n := by
  by_cases hn : unitName i = n
  · subst hn
    by_cases hi : some i = startCommand (unitName i)
    · exact .inr hi
    · exact .inl (exec_isFailed_own hf hi h)
  · obtain ⟨hpca, hsr, hlc⟩ := unitsAreIndependent i s t h
    exact .inl (hf.of_unit_eq (fun h => hpca (h ▸ hn)) (fun h => hsr (h ▸ hn))
      (fun h => hlc (h ▸ hn)))

/-- Settles O22: the code says what the error left, and only a start command ends FAILED. -/
theorem fatalErrorsFailTheirUnit : Obligations.FatalErrorsFailTheirUnit := by
  intro i s t r h hr
  obtain ⟨k, d⟩ := r
  have ht (hne : k ≠ 0) : t = (s.afterError k).erred k := exec_errsByCode i s t _ h hr hne
  have hexit {n : UnitName} (hf : s.IsFailed n) := exec_isFailed h hf
  refine ⟨?_, ?_, ?_, ?_, fun hf => ?_, fun hf => ?_, fun hf => ?_⟩
  · rintro (rfl | rfl) <;> obtain rfl := ht (by decide) <;> exact ⟨rfl, rfl, rfl⟩
  · rintro rfl
    obtain rfl := ht (by decide)
    exact ⟨rfl, rfl, rfl⟩
  · rintro rfl
    obtain rfl := ht (by decide)
    exact ⟨rfl, rfl, rfl⟩
  · rintro (rfl | rfl) <;> obtain rfl := ht (by decide) <;> exact ⟨rfl, rfl, rfl⟩
  · exact (hexit (n := .pca) hf).imp_right Option.some.inj
  · exact (hexit (n := .sr) hf).imp_right Option.some.inj
  · exact (hexit (n := .lc) hf).imp_right Option.some.inj

end Sys2Proof.Machine
